-- ==== Sys2Proof/Word.lean ====
section
/-! DEFINITION. The cell type of the Intcode CORE and the limits of its range. -/

namespace Sys2Proof

/-- One memory cell, input value, output value or literal: a signed 64-bit integer in two's
complement (R5 `WORD_BITS`, R6, R41). The integer it stands for is `BitVec.toInt`; its range is
`[INT_MIN, INT_MAX]` by construction. -/
abbrev Word := BitVec 64

/-- `INT_MIN` of R5. -/
def intMin : Int := -2 ^ 63

/-- `INT_MAX` of R5. -/
def intMax : Int := 2 ^ 63 - 1

end Sys2Proof
end

