-- ==== Sys2Proof/Config.lean ====
section
/-! DEFINITION. The implementation parameters of R5 that are fixed for a whole run. `WORD_BITS` is the
type `Word`; `INPUT_POLICY` has the one value `suspend` (R110, log entry 10); `MEM_WORDS` is chosen by
each `LOAD` and stands in the state. The spec leaves no value open that the model would have to keep
free, so this file holds no opaque constant. -/

namespace Sys2Proof.Config

/-- What Add, Mul and AdjustBase do with an exact result outside the signed 64-bit range (R5, R102). -/
inductive OvfPolicy where
  /-- raise OverflowError: the value this spec fixes -/
  | fault
  /-- reduce the result modulo 2^64 into the signed range: the second value a model may expose -/
  | wrap
  deriving DecidableEq, Repr

/-- `OVF_POLICY` (R5): the spec fixes `fault`, and every rule is written at it. Log entry 9. -/
def ovfPolicy : OvfPolicy := .fault

/-- `MEM_MAX` (R5): the largest `MEM_WORDS` a `LOAD` accepts. The spec leaves it open up to 2^63 and
lets a model take 2^63. DESIGN CHOICE, log entry 4. -/
def memMax : Nat := 2 ^ 63

end Sys2Proof.Config
end

