-- ==== Sys2Proof/Syntax.lean ====
section
/-! DEFINITION. Parameter modes, the ten instructions, and the four ways an instruction word can be
illegal. An instruction carries the modes of the parameters it has; the literals stay in memory and are
read while it executes (R53, R84), so they are no part of the syntax (log entry 13). -/

namespace Sys2Proof

/-- The three parameter modes (R64). -/
inductive Mode where
  /-- digit 0: the operand is the cell the literal names -/
  | position
  /-- digit 1: the operand is the literal itself; illegal for a destination -/
  | immediate
  /-- digit 2: the operand is the cell at literal + RB -/
  | relative
  deriving DecidableEq, Repr

/-- The complete instruction set (R67), one constructor per row of the opcode table. Parameters stand in
the order 0, 1, 2; `dst` marks the destination parameter (R65). -/
inductive Instr where
  /-- opcode 1, R100: dst = a + b -/
  | add (a b dst : Mode)
  /-- opcode 2, R101: dst = a * b -/
  | mul (a b dst : Mode)
  /-- opcode 3, R110: dst = next input value -/
  | input (dst : Mode)
  /-- opcode 4, R111: emit value a -/
  | output (a : Mode)
  /-- opcode 5, R120: if a is not 0, IP becomes b -/
  | jumpIfTrue (a b : Mode)
  /-- opcode 6, R121: if a is 0, IP becomes b -/
  | jumpIfFalse (a b : Mode)
  /-- opcode 7, R130: dst = 1 if a < b, else 0 -/
  | lessThan (a b dst : Mode)
  /-- opcode 8, R131: dst = 1 if a = b, else 0 -/
  | equals (a b dst : Mode)
  /-- opcode 9, R140: RB becomes RB + a -/
  | adjustBase (a : Mode)
  /-- opcode 99, R141: stop permanently -/
  | halt
  deriving DecidableEq, Repr

/-- The modes of an instruction's parameters, in parameter order (R65). -/
def Instr.modes : Instr → List Mode
  | .add a b d => [a, b, d]
  | .mul a b d => [a, b, d]
  | .input d => [d]
  | .output a => [a]
  | .jumpIfTrue a b => [a, b]
  | .jumpIfFalse a b => [a, b]
  | .lessThan a b d => [a, b, d]
  | .equals a b d => [a, b, d]
  | .adjustBase a => [a]
  | .halt => []

/-- How many parameters an instruction has (R67). -/
def Instr.paramCount (i : Instr) : Nat := i.modes.length

/-- The destination parameter, if there is one: its number and its mode (R65). -/
def Instr.dest : Instr → Option (Nat × Mode)
  | .add _ _ d => some (2, d)
  | .mul _ _ d => some (2, d)
  | .input d => some (0, d)
  | .output _ => none
  | .jumpIfTrue _ _ => none
  | .jumpIfFalse _ _ => none
  | .lessThan _ _ d => some (2, d)
  | .equals _ _ d => some (2, d)
  | .adjustBase _ => none
  | .halt => none

/-- How many cells an instruction occupies: its word and its parameters (R60, R74). -/
def Instr.length (i : Instr) : Nat := 1 + i.paramCount

/-- The reasons of a DecodeError (R170, cause 1). -/
inductive DecodeReason where
  /-- the low two digits are no opcode (R68) -/
  | badOpcode
  /-- the instruction word is negative (R69) -/
  | negativeWord
  /-- one of the three mode digits is 3 to 9 (R70) -/
  | badMode
  /-- the destination parameter's mode is Immediate (R71) -/
  | immediateDest
  deriving DecidableEq, Repr

end Sys2Proof
end

