-- ==== Sys2Proof/WellFormed.lean ====
section
/-! DEFINITION. Which instructions the encoding has: all but those with an Immediate destination. -/

namespace Sys2Proof

/-- R31 (2), R71: the destination parameter of Add, Mul, Input, LessThan and Equals is never Immediate.
The other instructions have no destination parameter and are always well formed. -/
def Instr.wellFormed : Instr → Bool
  | .add _ _ d => d != .immediate
  | .mul _ _ d => d != .immediate
  | .input d => d != .immediate
  | .output _ => true
  | .jumpIfTrue _ _ => true
  | .jumpIfFalse _ _ => true
  | .lessThan _ _ d => d != .immediate
  | .equals _ _ d => d != .immediate
  | .adjustBase _ => true
  | .halt => true

/-- `Instr.wellFormed` as a proposition. -/
abbrev WellFormed (i : Instr) : Prop := i.wellFormed = true

end Sys2Proof
end

