-- ==== Sys2Proof/Decode.lean ====
section
/-! DEFINITION. The decoder of R62 and R83, total on every cell value, and after it the encoder of R76.
Fields are decimal digits of the cell's value (R61), never bits. -/

namespace Sys2Proof

/-- `digit(w, i)` of R7: the decimal digit of weight 10^i. -/
def digit (w i : Nat) : Nat := w / 10 ^ i % 10

/-- `op = w mod 100` (R62). -/
def opcodeField (w : Nat) : Nat := w % 100

/-- `mode(k) = floor(w / 10^(k+2)) mod 10` (R62). -/
def modeDigit (w k : Nat) : Nat := digit w (k + 2)

/-- The mode a digit stands for; none for 3 to 9 (R64, R70). -/
def Mode.ofDigit : Nat → Option Mode
  | 0 => some .position
  | 1 => some .immediate
  | 2 => some .relative
  | _ => none

/-- The opcode map of R67: the instruction an opcode selects, given the three modes the decoder always
produces. A mode the opcode has no parameter for is dropped (R72); none where the opcode is illegal
(R68). -/
def Instr.ofOpcode (op : Nat) (m0 m1 m2 : Mode) : Option Instr :=
  match op with
  | 1 => some (.add m0 m1 m2)
  | 2 => some (.mul m0 m1 m2)
  | 3 => some (.input m0)
  | 4 => some (.output m0)
  | 5 => some (.jumpIfTrue m0 m1)
  | 6 => some (.jumpIfFalse m0 m1)
  | 7 => some (.lessThan m0 m1 m2)
  | 8 => some (.equals m0 m1 m2)
  | 9 => some (.adjustBase m0)
  | 99 => some .halt
  | _ => none

/-- `op` is one of 1 to 9 and 99 (R67, R68). -/
def legalOpcode (op : Nat) : Bool := decide (1 ≤ op ∧ op ≤ 9) || op == 99

/-- The checks of R83 from the mode digits on, for a legal opcode: first that all three digits are modes
(R70), then that no destination is Immediate (R71). -/
def decodeModes (op d0 d1 d2 : Nat) : Except DecodeReason Instr :=
  match Mode.ofDigit d0, Mode.ofDigit d1, Mode.ofDigit d2 with
  | some m0, some m1, some m2 =>
    match Instr.ofOpcode op m0 m1 m2 with
    | some i => if i.wellFormed then .ok i else .error .immediateDest
    | none => .error .badOpcode
  | _, _, _ => .error .badMode

/-- `DecodeAndCheck(w)` of R83: the checks in its order, the first that fails names the error. Digits d5
and above take no part (R72). -/
def decode (w : Word) : Except DecodeReason Instr :=
  if w.toInt < 0 then .error .negativeWord
  else if legalOpcode (opcodeField w.toNat) then
    decodeModes (opcodeField w.toNat) (modeDigit w.toNat 0) (modeDigit w.toNat 1) (modeDigit w.toNat 2)
  else .error .badOpcode

/-- The digit of a mode (R64). -/
def Mode.digit : Mode → Nat
  | .position => 0
  | .immediate => 1
  | .relative => 2

/-- The opcode of an instruction (R67). -/
def Instr.opcode : Instr → Nat
  | .add _ _ _ => 1
  | .mul _ _ _ => 2
  | .input _ => 3
  | .output _ => 4
  | .jumpIfTrue _ _ => 5
  | .jumpIfFalse _ _ => 6
  | .lessThan _ _ _ => 7
  | .equals _ _ _ => 8
  | .adjustBase _ => 9
  | .halt => 99

/-- The mode digits of a parameter list, the first at the given weight (R76). -/
def packModes : Nat → List Mode → Nat
  | _, [] => 0
  | weight, m :: ms => weight * m.digit + packModes (10 * weight) ms

/-- The canonical instruction word as a number: op + 100 mode(0) + 1000 mode(1) + 10000 mode(2), absent
parameters contributing 0 (R76, R79). -/
def Instr.encodeNat (i : Instr) : Nat := i.opcode + packModes 100 i.modes

/-- The canonical instruction word of an instruction (R76, R79). -/
def encode (i : Instr) : Word := BitVec.ofNat 64 i.encodeNat

/-- Cell `k` of an instruction given as one number: the first cell holds bits 63 to 0, the next bits 127
to 64, and so on, bit 0 the least significant (R7). Every bit from `nbits` up is 0. Log entry 19. -/
def tableCell (nbits w k : Nat) : Word := BitVec.ofNat 64 ((w % 2 ^ nbits) / 2 ^ (64 * k))

/-- The instruction the decoder reads from an instruction given as one number: only its first cell, the
instruction word, takes part in decoding (R74). -/
def decodeTableWord (nbits w : Nat) : Option Instr :=
  match decode (tableCell nbits w 0) with
  | .ok i => some i
  | .error _ => none

end Sys2Proof
end

