-- ==== Sys2Proof/Machine/State.lean ====
section
/-! DEFINITION. The state of one session (R20), the names of its control values, the host's commands and
the answers to them, and the state right after reset. All of it is plain data. -/

namespace Sys2Proof.Machine

/-- The memory array `MEM` (R21): the cells that differ from 0, as (cell index, value) pairs with strictly
rising indices. A cell that is not listed reads as 0 (R48). The addressable unit is the cell, which has
no bytes (R41, R42). Log entry 1. -/
abbrev Memory := List (Nat × Word)

/-- The four values of `STATUS` (R26). -/
inductive Status where
  /-- the next STEP fetches at IP -/
  | running
  /-- the instruction at IP is an Input and no value is latched -/
  | needsInput
  /-- a Halt was executed -/
  | halted
  /-- a fatal error was raised; only LOAD leaves -/
  | faulted
  deriving DecidableEq, Repr

/-- The values of `FAULT_CAUSE` (R28, R170). -/
inductive FaultCause where
  /-- code 0: no fault since LOAD -/
  | none
  /-- code 1 -/
  | decodeError
  /-- code 2 -/
  | addressError
  /-- code 3: never raised by the CORE (R173) -/
  | starvedInputError
  /-- code 4 -/
  | callerMisuseError
  /-- code 5 -/
  | overflowError
  deriving DecidableEq, Repr

/-- The reasons of an AddressError (R170, cause 2, R172). -/
inductive AddressReason where
  /-- IP is at or beyond MEM_WORDS (R82) -/
  | fetchOutOfRange
  /-- a parameter cell is at or beyond MEM_WORDS (R84) -/
  | paramOutOfRange
  /-- a source address is negative (R85) -/
  | srcNegative
  /-- a source address is at or beyond MEM_WORDS (R85) -/
  | srcOutOfRange
  /-- a destination address is negative (R86) -/
  | dstNegative
  /-- a destination address is at or beyond MEM_WORDS (R86) -/
  | dstOutOfRange
  /-- a taken jump's target is negative (R120, R121) -/
  | jumpNegative
  /-- a taken jump's target is at or beyond MEM_WORDS (R120, R121) -/
  | jumpOutOfRange
  deriving DecidableEq, Repr

/-- The reasons of a CallerMisuseError (R170, cause 4, R174). -/
inductive MisuseReason where
  /-- STEP of a halted session -/
  | steppedHalted
  /-- STEP in NeedsInput with no SUPPLY -/
  | stepWithoutSupply
  /-- SUPPLY when no input was asked for (R152) -/
  | supplyNotNeeded
  deriving DecidableEq, Repr

/-- The reasons of an OverflowError (R170, cause 5, R175). -/
inductive OverflowReason where
  /-- an Add result outside int64 (R100) -/
  | addOverflow
  /-- a Mul result outside int64 (R101) -/
  | mulOverflow
  /-- RB + a outside int64 (R140) -/
  | baseOverflow
  deriving DecidableEq, Repr

/-- The values of `FAULT_REASON` (R28, R170), each under the cause it belongs to. -/
inductive FaultReason where
  /-- code 0: no fault since LOAD -/
  | none
  /-- a reason of DecodeError -/
  | decode (r : DecodeReason)
  /-- a reason of AddressError -/
  | address (r : AddressReason)
  /-- the reason of StarvedInputError, reported by the host's strict wrapper only (R157, R173) -/
  | starved
  /-- a reason of CallerMisuseError -/
  | misuse (r : MisuseReason)
  /-- a reason of OverflowError -/
  | overflow (r : OverflowReason)
  deriving DecidableEq, Repr

/-- The five commands a session accepts (R150). -/
inductive Command where
  /-- `LOAD(program, extra_padding)` (R151): any integers may be given, out-of-range ones are refused -/
  | load (program : List Int) (extraPadding : Int)
  /-- `STEP` (R80, R81) -/
  | step
  /-- `SUPPLY(value)` (R152) -/
  | supply (value : Word)
  /-- `PEEK(a)`, for any integer `a` (R153) -/
  | peek (address : Int)
  /-- `INSPECT` (R153) -/
  | inspect
  deriving DecidableEq, Repr

/-- The register tuple `INSPECT` returns, in the order of R153. -/
structure Registers where
  status      : Status
  ip          : Nat
  rb          : Word
  memWords    : Nat
  inValid     : Bool
  faultCause  : FaultCause
  faultReason : FaultReason
  deriving DecidableEq, Repr

/-- The answer to a command (R150). The first five are the results of STEP (R80). -/
inductive Response where
  /-- `Continue`: an instruction other than Output or Halt was executed -/
  | continues
  /-- `Output(v)`: an Output emitted `v` -/
  | output (v : Word)
  /-- `NeedsInput`: the instruction at IP is an Input and no value is latched -/
  | needsInput
  /-- `Halted`: a Halt was executed -/
  | halted
  /-- `Fault(cause, reason)`: of STEP or SUPPLY -/
  | fault (cause : FaultCause) (reason : FaultReason)
  /-- `Loaded`: of LOAD -/
  | loaded
  /-- `LoadRefused`: of LOAD -/
  | loadRefused
  /-- `Accepted`: of SUPPLY -/
  | accepted
  /-- `Value(v)`: of PEEK -/
  | value (v : Word)
  /-- `NoSuchCell`: of PEEK -/
  | noSuchCell
  /-- the register tuple: of INSPECT -/
  | registers (r : Registers)
  deriving DecidableEq, Repr

/-- The state of one session. The first nine fields are all the state R20 gives the machine. The last two
are the MODEL's own: they stand for the host on the other side of the command interface (log entries 6
and 7), and no instruction reads them. -/
structure State where
  /-- `MEM` (R21) -/
  mem         : Memory
  /-- `MEM_WORDS`, the number of cells (R29) -/
  memWords    : Nat
  /-- `IP`, the index of the next instruction word (R22) -/
  ip          : Nat
  /-- `RB`, the relative base (R23) -/
  rb          : Word
  /-- `STATUS` (R26) -/
  status      : Status
  /-- `IN_VALID` (R27) -/
  inValid     : Bool
  /-- `IN_DATA` (R27) -/
  inData      : Word
  /-- `FAULT_CAUSE` (R28) -/
  faultCause  : FaultCause
  /-- `FAULT_REASON` (R28) -/
  faultReason : FaultReason
  /-- the model's own: the commands the host issues next, in order; when none is listed it issues STEP -/
  host        : List Command
  /-- the model's own: what the last command returned to the host (R30 (b)) -/
  result      : Response
  deriving DecidableEq, Repr

/-- Reasons for which a step stops with no next state. There are none: every fault of the spec is entered
as R176 describes, which is a next state, and STEP is total (R10, R93). Log entry 11. -/
inductive Fault where
  deriving DecidableEq, Repr

/-- Reasons for which the model gives an instruction no meaning. -/
inductive Refusal where
  /-- raised by an arm of `exec` whose instruction has no meaning yet; safe, since nothing can be proved of
  a next state. No arm raises it: all ten instructions have their meaning. -/
  | notModelled (mnemonic : String)
  deriving DecidableEq, Repr

/-- The machine right after reset. Reset is LOAD (R200), so this is the state R32 gives after
`LOAD([], 2^63)`: the empty program in the largest memory, every cell 0. IP 0, RB 0, Running, no value
latched, no fault (R32). `MEM_WORDS` is the argument of that LOAD and `IN_DATA`, which R32 leaves
unspecified, is 0: DESIGN CHOICE, log entries 4 and 8. -/
def State.reset : State where
  mem := []
  memWords := 2 ^ 63
  ip := 0
  rb := 0
  status := .running
  inValid := false
  inData := 0
  faultCause := .none
  faultReason := .none
  host := []
  result := .loaded

end Sys2Proof.Machine
end

