-- ==== Sys2Proof/Machine/Ops.lean ====
section
/-! DEFINITION. The operations on memory and on the session's registers, taking a fault, and the stages of
a STEP before its instruction executes. -/

namespace Sys2Proof.Machine

/-! ### Memory -/

/-- The value of cell `a`; a cell that is not listed reads as 0 (R45, R48). -/
def Memory.read : Memory → Nat → Word
  | [], _ => 0
  | (b, v) :: rest, a => if a = b then v else Memory.read rest a

/-- `MEM[a] <- v` (R46), keeping the canonical form: indices rise strictly, and no cell that holds 0 is
listed. -/
def Memory.write : Memory → Nat → Word → Memory
  | [], a, v => if v = 0 then [] else [(a, v)]
  | (b, u) :: rest, a, v =>
    if a < b then (if v = 0 then (b, u) :: rest else (a, v) :: (b, u) :: rest)
    else if a = b then (if v = 0 then rest else (a, v) :: rest)
    else (b, u) :: Memory.write rest a v

/-- Every listed index is at least `lo`, the indices rise strictly and no listed value is 0. -/
def Memory.wfFrom : Nat → Memory → Bool
  | _, [] => true
  | lo, (a, v) :: rest => decide (lo ≤ a) && (v != 0) && Memory.wfFrom (a + 1) rest

/-- The canonical form of a memory. -/
def Memory.wf (m : Memory) : Bool := Memory.wfFrom 0 m

/-- The memory that holds a program from cell `i` on and 0 everywhere else (R32). -/
def Memory.image : Nat → List Word → Memory
  | _, [] => []
  | i, v :: vs => if v = 0 then Memory.image (i + 1) vs else (i, v) :: Memory.image (i + 1) vs

/-! ### Updates of the state -/

/-- `MemWrite(a, 1, v)` (R46). -/
def State.store (s : State) (a : Nat) (v : Word) : State := { s with mem := s.mem.write a v }

/-- Sequential advance past an instruction of `n` cells (R90). -/
def State.advance (s : State) (n : Nat) : State := { s with ip := s.ip + n }

/-- `IP <- target` of a taken jump (R122). -/
def State.jumpTo (s : State) (target : Nat) : State := { s with ip := target }

/-- `RB <- r` (R140). -/
def State.setBase (s : State) (r : Word) : State := { s with rb := r }

/-- `IN_VALID <- 0`: the latched value is consumed (R110). -/
def State.consumeInput (s : State) : State := { s with inValid := false }

/-- `IN_DATA <- v; IN_VALID <- 1` (R152). -/
def State.latchInput (s : State) (v : Word) : State := { s with inValid := true, inData := v }

/-- `STATUS <- x`. -/
def State.setStatus (s : State) (x : Status) : State := { s with status := x }

/-- The command returns `r` to the host. -/
def State.answer (s : State) (r : Response) : State := { s with result := r }

/-! ### Faults -/

/-- The cause a reason belongs to (R170). -/
def FaultReason.cause : FaultReason → FaultCause
  | .none => .none
  | .decode _ => .decodeError
  | .address _ => .addressError
  | .starved => .starvedInputError
  | .misuse _ => .callerMisuseError
  | .overflow _ => .overflowError

/-- The numeric code of a cause (R170). -/
def FaultCause.code : FaultCause → Nat
  | .none => 0
  | .decodeError => 1
  | .addressError => 2
  | .starvedInputError => 3
  | .callerMisuseError => 4
  | .overflowError => 5

/-- The numeric code of a reason, which has its meaning under its cause (R170). -/
def FaultReason.code : FaultReason → Nat
  | .none => 0
  | .decode .badOpcode => 1
  | .decode .negativeWord => 2
  | .decode .badMode => 3
  | .decode .immediateDest => 4
  | .address .fetchOutOfRange => 1
  | .address .paramOutOfRange => 2
  | .address .srcNegative => 3
  | .address .srcOutOfRange => 4
  | .address .dstNegative => 5
  | .address .dstOutOfRange => 6
  | .address .jumpNegative => 7
  | .address .jumpOutOfRange => 8
  | .starved => 1
  | .misuse .steppedHalted => 1
  | .misuse .stepWithoutSupply => 2
  | .misuse .supplyNotNeeded => 3
  | .overflow .addOverflow => 1
  | .overflow .mulOverflow => 2
  | .overflow .baseOverflow => 3

/-- The numeric code of a status (R154). -/
def Status.code : Status → Nat
  | .running => 0
  | .needsInput => 1
  | .halted => 2
  | .faulted => 3

/-- The numeric kind of a STEP result (R154); none for an answer that no STEP gives. -/
def Response.kind : Response → Option Nat
  | .continues => some 0
  | .output _ => some 1
  | .needsInput => some 2
  | .halted => some 3
  | .fault _ _ => some 4
  | .loaded => none
  | .loadRefused => none
  | .accepted => none
  | .value _ => none
  | .noSuchCell => none
  | .registers _ => none

/-- Fault entry (R176): STATUS, FAULT_CAUSE and FAULT_REASON are written, the command returns
`Fault(cause, reason)`, and nothing else changes. There is no return from a fault (R179): the one way out
is LOAD (R178). -/
def State.raise (s : State) (r : FaultReason) : State :=
  { s with status := .faulted, faultCause := r.cause, faultReason := r, result := .fault r.cause r }

/-- STEP or SUPPLY of a faulted session: the recorded first fault is returned again and nothing changes
(R178). -/
def State.returnFault (s : State) : State := s.answer (.fault s.faultCause s.faultReason)

/-- The end of a command that works on `s`: commit all of its writes together (R89), or, if a stage raised,
nothing but fault entry (R176). -/
def finish (s : State) (r : Except FaultReason State) : Host.Outcome State Fault Refusal :=
  match r with
  | .ok t => .next t
  | .error e => .next (s.raise e)

/-! ### The stages of a STEP before the operand stage -/

/-- `Fetch()` (R82). -/
def fetch (s : State) : Except FaultReason Word :=
  if s.memWords ≤ s.ip then .error (.address .fetchOutOfRange) else .ok (s.mem.read s.ip)

/-- The decode stage (R83), its errors as faults of the session. -/
def decodeStage (w : Word) : Except FaultReason Instr :=
  match decode w with
  | .ok i => .ok i
  | .error e => .error (.decode e)

/-- The fetch stage, then the decode stage (R81). -/
def fetchDecode (s : State) : Except FaultReason Instr :=
  match fetch s with
  | .ok w => decodeStage w
  | .error e => .error e

/-- The first cells of an instruction given as one number, stored from cell `a` on. -/
def Memory.place : Memory → Nat → List Word → Memory
  | m, _, [] => m
  | m, a, v :: vs => Memory.place (m.write a v) (a + 1) vs

end Sys2Proof.Machine
end

