-- ==== Sys2Proof/Machine/Flags.lean ====
section
/-! DEFINITION. The CORE has no flags and no condition codes (R25). What stands in their place: the
overflow check of an exact result, the 0-or-1 result of a comparison, and the zero test of a jump. -/

namespace Sys2Proof.Machine

/-- `fits64(v)` (R6). -/
def fits64 (v : Int) : Bool := decide (intMin ≤ v) && decide (v ≤ intMax)

/-- `wrap64(v)` (R6): the cell value congruent to `v` modulo 2^64. -/
def wrap64 (v : Int) : Word := BitVec.ofInt 64 v

/-- An exact result brought into a cell (R102): itself where it fits; else an OverflowError at
`OVF_POLICY = fault`, and `wrap64` of it at `wrap`. -/
def narrow (p : Config.OvfPolicy) (why : OverflowReason) (v : Int) : Except FaultReason Word :=
  if fits64 v then .ok (wrap64 v)
  else
    match p with
    | .fault => .error (.overflow why)
    | .wrap => .ok (wrap64 v)

/-- The result of a comparison, exactly 0 or 1, as wide as a cell (R130, R131). -/
def truth (b : Bool) : Word := if b then 1 else 0

/-- The zero test of the jumps: all 64 bits of `a` are 0 (R121). -/
def isZero (a : Word) : Bool := a == 0

end Sys2Proof.Machine
end

