-- ==== Sys2Proof/Machine/Operands.lean ====
section
/-! DEFINITION. The operand resolver: literals, source values, destination addresses and jump targets, and
the order in which a format's parameters are resolved. All are functions of the state that change
nothing (R92). -/

namespace Sys2Proof.Machine

/-- `Lit(k)` (R84): the literal of parameter `k` of the instruction at IP. -/
def literal (s : State) (k : Nat) : Except FaultReason Word :=
  if s.memWords ≤ s.ip + 1 + k then .error (.address .paramOutOfRange) else .ok (s.mem.read (s.ip + 1 + k))

/-- The range check of R47 on an exact integer address: the cell index it names, or one of two faults. -/
def checkAddress (s : State) (negative outOfRange : AddressReason) (a : Int) : Except FaultReason Nat :=
  if a < 0 then .error (.address negative)
  else if (s.memWords : Int) ≤ a then .error (.address outOfRange)
  else .ok a.toNat

/-- The exact effective address `lit + RB` of Relative mode, in Z (R87). -/
def relativeAddress (s : State) (lit : Word) : Int := lit.toInt + s.rb.toInt

/-- The value of the cell at a source address (R85). -/
def readSource (s : State) (a : Int) : Except FaultReason Word := do
  let c ← checkAddress s .srcNegative .srcOutOfRange a
  pure (s.mem.read c)

/-- `Src(k)` (R85): the read value of source parameter `k` in mode `m`. -/
def src (s : State) (k : Nat) (m : Mode) : Except FaultReason Word := do
  let lit ← literal s k
  match m with
  | .immediate => pure lit
  | .position => readSource s lit.toInt
  | .relative => readSource s (relativeAddress s lit)

/-- `Dst(k)` (R86): the write address of destination parameter `k` in mode `m`. An Immediate destination
never gets past the decode stage (R71, R83); asked for one, the resolver raises the same error. Log
entry 12. -/
def dst (s : State) (k : Nat) (m : Mode) : Except FaultReason Nat :=
  match m with
  | .immediate => .error (.decode .immediateDest)
  | .position => do
    let lit ← literal s k
    checkAddress s .dstNegative .dstOutOfRange lit.toInt
  | .relative => do
    let lit ← literal s k
    checkAddress s .dstNegative .dstOutOfRange (relativeAddress s lit)

/-- The target check of a taken jump (R120, R121). -/
def jumpTarget (s : State) (b : Word) : Except FaultReason Nat :=
  checkAddress s .jumpNegative .jumpOutOfRange b.toInt

/-- The two sources of a format F2 instruction, in order (R88). -/
def resolveF2 (s : State) (m0 m1 : Mode) : Except FaultReason (Word × Word) := do
  let a ← src s 0 m0
  let b ← src s 1 m1
  pure (a, b)

/-- The two sources and the destination of a format F3 instruction, in order (R88). -/
def resolveF3 (s : State) (m0 m1 m2 : Mode) : Except FaultReason (Word × Word × Nat) := do
  let (a, b) ← resolveF2 s m0 m1
  let d ← dst s 2 m2
  pure (a, b, d)

/-- A format F3 instruction from the operand stage on: resolve, compute, and at commit write the result
and advance by 4 cells (R88, R89, R90). -/
def threeOperand (s : State) (m0 m1 m2 : Mode) (alu : Word → Word → Except FaultReason Word) :
    Host.Outcome State Fault Refusal :=
  finish s do
    let (a, b, d) ← resolveF3 s m0 m1 m2
    let r ← alu a b
    pure (((s.store d r).advance 4).answer .continues)

/-- A format F2 instruction from the operand stage on: both parameters are resolved whether or not the
jump is taken, and the target is checked only when it is (R88, R120, R121). -/
def conditionalJump (s : State) (m0 m1 : Mode) (taken : Word → Bool) : Host.Outcome State Fault Refusal :=
  finish s do
    let (a, b) ← resolveF2 s m0 m1
    if taken a then do
      let t ← jumpTarget s b
      pure ((s.jumpTo t).answer .continues)
    else pure ((s.advance 3).answer .continues)

end Sys2Proof.Machine
end

