-- ==== Sys2Proof/Machine/Arithmetic.lean ====
section
/-! DEFINITION. Add and Mul (R100 to R102). -/

namespace Sys2Proof.Machine

/-- The execute stage of Add: the exact sum, checked (R100). -/
def addResult (p : Config.OvfPolicy) (a b : Word) : Except FaultReason Word :=
  narrow p .addOverflow (a.toInt + b.toInt)

/-- The execute stage of Mul: the exact signed product, checked (R101). -/
def mulResult (p : Config.OvfPolicy) (a b : Word) : Except FaultReason Word :=
  narrow p .mulOverflow (a.toInt * b.toInt)

/-- Add (R100). -/
def execAdd (m0 m1 m2 : Mode) (s : State) : Host.Outcome State Fault Refusal :=
  threeOperand s m0 m1 m2 (addResult Config.ovfPolicy)

/-- Mul (R101). -/
def execMul (m0 m1 m2 : Mode) (s : State) : Host.Outcome State Fault Refusal :=
  threeOperand s m0 m1 m2 (mulResult Config.ovfPolicy)

end Sys2Proof.Machine
end

