-- ==== Sys2Proof/Machine/BaseAndHalt.lean ====
section
/-! DEFINITION. AdjustBase and Halt (R140, R141). -/

namespace Sys2Proof.Machine

/-- The execute stage of AdjustBase: the exact sum `RB + a`, checked (R140). -/
def baseResult (p : Config.OvfPolicy) (rb a : Word) : Except FaultReason Word :=
  narrow p .baseOverflow (rb.toInt + a.toInt)

/-- AdjustBase (R140): its operand is read with the old RB. -/
def execAdjustBase (m0 : Mode) (s : State) : Host.Outcome State Fault Refusal :=
  finish s do
    let a ← src s 0 m0
    let r ← baseResult Config.ovfPolicy s.rb a
    pure (((s.setBase r).advance 2).answer .continues)

/-- Halt (R141): IP stays at the Halt's own word and no parameter cell is read. -/
def execHalt (s : State) : Host.Outcome State Fault Refusal :=
  .next ((s.setStatus .halted).answer .halted)

end Sys2Proof.Machine
end

