-- ==== Sys2Proof/Machine/Compare.lean ====
section
/-! DEFINITION. LessThan and Equals (R130, R131). -/

namespace Sys2Proof.Machine

/-- LessThan (R130): a signed comparison. -/
def execLessThan (m0 m1 m2 : Mode) (s : State) : Host.Outcome State Fault Refusal :=
  threeOperand s m0 m1 m2 fun a b => .ok (truth (decide (a.toInt < b.toInt)))

/-- Equals (R131): equality of all 64 bits. -/
def execEquals (m0 m1 m2 : Mode) (s : State) : Host.Outcome State Fault Refusal :=
  threeOperand s m0 m1 m2 fun a b => .ok (truth (a == b))

end Sys2Proof.Machine
end

