-- ==== Sys2Proof/Machine/InputOutput.lean ====
section
/-! DEFINITION. Input and Output (R110 to R112). -/

namespace Sys2Proof.Machine

/-- Input (R110). With no value latched it suspends: only STATUS changes and no parameter cell is read.
With a value latched it resolves its destination, writes the value and empties the latch. -/
def execInput (m0 : Mode) (s : State) : Host.Outcome State Fault Refusal :=
  if s.inValid then
    finish s do
      let d ← dst s 0 m0
      pure ((((s.store d s.inData).consumeInput).advance 2).answer .continues)
  else .next ((s.setStatus .needsInput).answer .needsInput)

/-- Output (R111): the value goes to the host as the STEP's result and nowhere else. -/
def execOutput (m0 : Mode) (s : State) : Host.Outcome State Fault Refusal :=
  finish s do
    let a ← src s 0 m0
    pure ((s.advance 2).answer (.output a))

end Sys2Proof.Machine
end

