-- ==== Sys2Proof/Machine/Jumps.lean ====
section
/-! DEFINITION. JumpIfTrue and JumpIfFalse (R120 to R122). -/

namespace Sys2Proof.Machine

/-- JumpIfTrue (R120): taken when `a` is not 0. -/
def execJumpIfTrue (m0 m1 : Mode) (s : State) : Host.Outcome State Fault Refusal :=
  conditionalJump s m0 m1 fun a => !isZero a

/-- JumpIfFalse (R121): taken when `a` is 0. -/
def execJumpIfFalse (m0 m1 : Mode) (s : State) : Host.Outcome State Fault Refusal :=
  conditionalJump s m0 m1 isZero

end Sys2Proof.Machine
end

