-- ==== Sys2Proof/Machine/Commands.lean ====
section
/-! DEFINITION. The five host commands (R150): STEP (R81), LOAD (R151), SUPPLY (R152), PEEK and INSPECT
(R153). Each is one atomic operation on the session. -/

namespace Sys2Proof.Machine

/-- `STEP` (R81): the status stage, the fetch stage, the decode stage, and then the instruction. -/
def stepCommand (s : State) : Host.Outcome State Fault Refusal :=
  match s.status with
  | .faulted => .next s.returnFault
  | .halted => .next (s.raise (.misuse .steppedHalted))
  | .needsInput => .next (s.raise (.misuse .stepWithoutSupply))
  | .running =>
    match fetchDecode s with
    | .ok i => exec i s
    | .error e => .next (s.raise e)

/-- The preconditions of `LOAD` (R151): every value fits a cell, the padding is not negative, and the
size is within `MEM_MAX`. -/
def loadAccepted (program : List Int) (extraPadding : Int) : Bool :=
  program.all fits64 && decide (0 ≤ extraPadding) &&
    decide ((program.length : Int) + extraPadding ≤ (Config.memMax : Int))

/-- The state R32 gives after an accepted `LOAD`. What the host issues next is not the session's and stays.
`IN_DATA` is unspecified there; 0 is a DESIGN CHOICE, log entry 8. -/
def loadedState (program : List Int) (extraPadding : Int) (host : List Command) : State where
  mem := Memory.image 0 (program.map wrap64)
  memWords := program.length + extraPadding.toNat
  ip := 0
  rb := 0
  status := .running
  inValid := false
  inData := 0
  faultCause := .none
  faultReason := .none
  host := host
  result := .loaded

/-- `LOAD(program, extra_padding)` (R151): accepted in every status; refused with no change when a
precondition fails. -/
def load (program : List Int) (extraPadding : Int) (s : State) : State :=
  if loadAccepted program extraPadding then loadedState program extraPadding s.host
  else s.answer .loadRefused

/-- `SUPPLY(v)` (R152). -/
def supply (v : Word) (s : State) : State :=
  match s.status with
  | .faulted => s.returnFault
  | .needsInput => ((s.latchInput v).setStatus .running).answer .accepted
  | .running => s.raise (.misuse .supplyNotNeeded)
  | .halted => s.raise (.misuse .supplyNotNeeded)

/-- `PEEK(a)` (R153): never faults. -/
def peek (a : Int) (s : State) : State :=
  if 0 ≤ a ∧ a < (s.memWords : Int) then s.answer (.value (s.mem.read a.toNat)) else s.answer .noSuchCell

/-- The register tuple of `INSPECT` (R153). -/
def State.registers (s : State) : Registers where
  status := s.status
  ip := s.ip
  rb := s.rb
  memWords := s.memWords
  inValid := s.inValid
  faultCause := s.faultCause
  faultReason := s.faultReason

/-- `INSPECT` (R153). -/
def inspect (s : State) : State := s.answer (.registers s.registers)

/-- One host command, carried out whole (R150). -/
def command (c : Command) (s : State) : Host.Outcome State Fault Refusal :=
  match c with
  | .load program extraPadding => .next (load program extraPadding s)
  | .step => stepCommand s
  | .supply v => .next (supply v s)
  | .peek a => .next (peek a s)
  | .inspect => .next (inspect s)

/-- The command the host issues next: the first one listed, and STEP when none is. Log entry 6. -/
def State.nextCommand (s : State) : Command :=
  match s.host with
  | [] => .step
  | c :: _ => c

/-- The state in which the host's next command is carried out: that command is no longer listed. -/
def State.takeCommand (s : State) : State := { s with host := s.host.tail }

end Sys2Proof.Machine
end

