-- ==== Sys2Proof/Machine/Step.lean ====
section
/-! DEFINITION. One step of the machine: the host's next command, carried out; and an instruction placed
where the next step fetches. -/

namespace Sys2Proof.Machine

/-- The host's next command, carried out (R150). With no command listed it is STEP (R81). -/
def step (s : State) : Host.Outcome State Fault Refusal := command s.nextCommand s.takeCommand

/-- `s` with an instruction given as one number stored at IP (four cells, the longest instruction), in a
running session whose memory holds those cells and whose host issues STEP. It stands for the LOAD of an
image with these cells at IP. Log entry 14. -/
def State.withFetchWord (s : State) (nbits w : Nat) : State :=
  { s with
    mem := s.mem.place s.ip [tableCell nbits w 0, tableCell nbits w 1, tableCell nbits w 2, tableCell nbits w 3]
    memWords := max s.memWords (s.ip + 4)
    status := .running
    host := [] }

end Sys2Proof.Machine
end

