-- ==== Sys2Proof/Machine/HostMacros.lean ====
section
/-! DEFINITION. The host-side loops of R155 to R157 over the CORE's commands. They are no CORE hardware
(R3 (4)); the loops of the spec have no bound, here a number of STEPs bounds them (log entry 17). -/

namespace Sys2Proof.Machine

/-- STEP while the result is `Continue`, at most `n` STEPs: the session after the first other result, which
stands in its `result`; none if there was no other result. -/
def stepWhileContinue : Nat → State → Option State
  | 0, _ => none
  | n + 1, s =>
    match stepCommand s with
    | .next t => if t.result = .continues then stepWhileContinue n t else some t
    | .fault _ => none
    | .refused _ => none

/-- `run_until_output_or_halt` (R155): every result but `Continue` goes back to the host. -/
def runUntilOutputOrHalt (n : Nat) (s : State) : Option State := stepWhileContinue n s

/-- "drive until NeedsInput" (R156): likewise. -/
def driveUntilNeedsInput (n : Nat) (s : State) : Option State := stepWhileContinue n s

/-- What a host has in hand when it stops driving a session. -/
structure HostRun where
  /-- the values of all `Output(v)` results, in order -/
  outputs : List Word
  /-- the answer the run stopped on -/
  answer  : Response
  /-- the session as the run left it -/
  session : State
  deriving DecidableEq, Repr

/-- A host that supplies the listed inputs as the session asks for them, at most `n` STEPs. When the session
asks and no input is left it stops; a `strict` host then reports StarvedInputError, with the session left
in NeedsInput (R157, R173). R157 says only "drive with STEP" of every other result: that this host collects
the value of an Output and goes on, that it stops on Halted and on Fault and hands that result back, and
that a host which is not strict stops with NeedsInput, is a DESIGN CHOICE, log entry 23. -/
def drive (strict : Bool) : Nat → List Word → State → Option HostRun
  | 0, _, _ => none
  | n + 1, inputs, s =>
    match stepCommand s with
    | .fault _ => none
    | .refused _ => none
    | .next t =>
      match t.result with
      | .continues => drive strict n inputs t
      | .output v => (drive strict n inputs t).map fun r => { r with outputs := v :: r.outputs }
      | .needsInput =>
        match inputs with
        | v :: rest => drive strict n rest (supply v t)
        | [] =>
          some { outputs := []
                 answer := if strict then .fault .starvedInputError .starved else .needsInput
                 session := t }
      | other => some { outputs := [], answer := other, session := t }

end Sys2Proof.Machine
end

