-- ==== Sys2Proof/Machine/Sessions.lean ====
section
/-! DEFINITION. Several sessions beside one another (R33, R187): independent copies of the machine, which a
host commands in any order. -/

namespace Sys2Proof.Machine

/-- The host gives command `c` to session `i`. The other sessions keep their state. A command to a session
that does not exist changes nothing (log entry 18). -/
def commandSession (sessions : List State) (i : Nat) (c : Command) : List State :=
  match sessions[i]? with
  | none => sessions
  | some s =>
    match command c s with
    | .next t => sessions.set i t
    | .fault _ => sessions
    | .refused _ => sessions

end Sys2Proof.Machine
end

