-- ==== Sys2Proof/Safety.lean ====
section
/-! DEFINITION. The words the claims are made in: what the operands of an instruction are and which fault
reading them raises, said from R84 to R88 and not by running the resolver; and the invariant of a
session (R22, R34). -/

namespace Sys2Proof.Machine

/-- The cell of parameter `k` exists and holds `lit` (R84). -/
def LiteralIs (s : State) (k : Nat) (lit : Word) : Prop :=
  s.ip + 1 + k < s.memWords ∧ s.mem.read (s.ip + 1 + k) = lit

/-- The effective address of a literal, exact in Z (R64, R87). -/
inductive AddressOf (s : State) : Mode → Word → Int → Prop where
  | position (lit : Word) : AddressOf s .position lit lit.toInt
  | relative (lit : Word) : AddressOf s .relative lit (lit.toInt + s.rb.toInt)

/-- Source parameter `k` in mode `m` has the value `v` (R85). -/
inductive SourceIs (s : State) (k : Nat) : Mode → Word → Prop where
  | literal {lit : Word} (h : LiteralIs s k lit) : SourceIs s k .immediate lit
  | cell {m : Mode} {lit : Word} {a : Int} (h : LiteralIs s k lit) (ha : AddressOf s m lit a)
      (low : 0 ≤ a) (high : a < (s.memWords : Int)) : SourceIs s k m (s.mem.read a.toNat)

/-- Reading source parameter `k` in mode `m` raises `e` (R85). -/
inductive SourceRaises (s : State) (k : Nat) : Mode → FaultReason → Prop where
  | missing {m : Mode} (h : s.memWords ≤ s.ip + 1 + k) : SourceRaises s k m (.address .paramOutOfRange)
  | negative {m : Mode} {lit : Word} {a : Int} (h : LiteralIs s k lit) (ha : AddressOf s m lit a)
      (low : a < 0) : SourceRaises s k m (.address .srcNegative)
  | outOfRange {m : Mode} {lit : Word} {a : Int} (h : LiteralIs s k lit) (ha : AddressOf s m lit a)
      (high : (s.memWords : Int) ≤ a) : SourceRaises s k m (.address .srcOutOfRange)

/-- Destination parameter `k` in mode `m` names cell `d` (R86). There is no Immediate destination. -/
inductive DestIs (s : State) (k : Nat) : Mode → Nat → Prop where
  | cell {m : Mode} {lit : Word} {a : Int} (h : LiteralIs s k lit) (ha : AddressOf s m lit a)
      (low : 0 ≤ a) (high : a < (s.memWords : Int)) : DestIs s k m a.toNat

/-- Resolving destination parameter `k` in mode `m` raises `e` (R86). -/
inductive DestRaises (s : State) (k : Nat) : Mode → FaultReason → Prop where
  | missing {m : Mode} (hm : m ≠ .immediate) (h : s.memWords ≤ s.ip + 1 + k) :
      DestRaises s k m (.address .paramOutOfRange)
  | negative {m : Mode} {lit : Word} {a : Int} (h : LiteralIs s k lit) (ha : AddressOf s m lit a)
      (low : a < 0) : DestRaises s k m (.address .dstNegative)
  | outOfRange {m : Mode} {lit : Word} {a : Int} (h : LiteralIs s k lit) (ha : AddressOf s m lit a)
      (high : (s.memWords : Int) ≤ a) : DestRaises s k m (.address .dstOutOfRange)

/-- The two sources of a format F2 or F3 instruction have the values `a` and `b`. -/
structure SourcesAre (s : State) (m0 m1 : Mode) (a b : Word) : Prop where
  first  : SourceIs s 0 m0 a
  second : SourceIs s 1 m1 b

/-- Resolving the two sources raises `e`: parameter 0 wins over parameter 1 (R88). -/
inductive SourcesRaise (s : State) (m0 m1 : Mode) : FaultReason → Prop where
  | first {e : FaultReason} (h : SourceRaises s 0 m0 e) : SourcesRaise s m0 m1 e
  | second {a : Word} {e : FaultReason} (h0 : SourceIs s 0 m0 a) (h : SourceRaises s 1 m1 e) :
      SourcesRaise s m0 m1 e

/-- The operands of a format F3 instruction: its two values and the cell it writes. -/
structure OperandsAre (s : State) (m0 m1 m2 : Mode) (a b : Word) (d : Nat) : Prop where
  sources : SourcesAre s m0 m1 a b
  dest    : DestIs s 2 m2 d

/-- Resolving the operands of a format F3 instruction raises `e`: the sources come first (R88). -/
inductive OperandsRaise (s : State) (m0 m1 m2 : Mode) : FaultReason → Prop where
  | sources {e : FaultReason} (h : SourcesRaise s m0 m1 e) : OperandsRaise s m0 m1 m2 e
  | dest {a b : Word} {e : FaultReason} (hs : SourcesAre s m0 m1 a b) (h : DestRaises s 2 m2 e) :
      OperandsRaise s m0 m1 m2 e

/-- The exact result `v` is a signed 64-bit integer (R5, R6). -/
def Representable (v : Int) : Prop := -2 ^ 63 ≤ v ∧ v ≤ 2 ^ 63 - 1

/-- Instruction `i` of state `s` stores `r` into cell `d`: one of the five instructions that write a cell
(R46), with operands that exist and a result that a cell holds (R100, R101, R110, R130, R131). -/
inductive Stores (s : State) : Instr → Nat → Word → Prop where
  | add {m0 m1 m2 : Mode} {a b r : Word} {d : Nat} (h : OperandsAre s m0 m1 m2 a b d)
      (hr : r.toInt = a.toInt + b.toInt) : Stores s (.add m0 m1 m2) d r
  | mul {m0 m1 m2 : Mode} {a b r : Word} {d : Nat} (h : OperandsAre s m0 m1 m2 a b d)
      (hr : r.toInt = a.toInt * b.toInt) : Stores s (.mul m0 m1 m2) d r
  | input {m : Mode} {d : Nat} (h : DestIs s 0 m d) (hv : s.inValid = true) : Stores s (.input m) d s.inData
  | less {m0 m1 m2 : Mode} {a b : Word} {d : Nat} (h : OperandsAre s m0 m1 m2 a b d)
      (hr : a.toInt < b.toInt) : Stores s (.lessThan m0 m1 m2) d 1#64
  | notLess {m0 m1 m2 : Mode} {a b : Word} {d : Nat} (h : OperandsAre s m0 m1 m2 a b d)
      (hr : b.toInt ≤ a.toInt) : Stores s (.lessThan m0 m1 m2) d 0#64
  | equal {m0 m1 m2 : Mode} {a b : Word} {d : Nat} (h : OperandsAre s m0 m1 m2 a b d)
      (hr : a.toInt = b.toInt) : Stores s (.equals m0 m1 m2) d 1#64
  | notEqual {m0 m1 m2 : Mode} {a b : Word} {d : Nat} (h : OperandsAre s m0 m1 m2 a b d)
      (hr : a.toInt ≠ b.toInt) : Stores s (.equals m0 m1 m2) d 0#64

/-- The instruction is a jump that is taken, with the condition `a` and the target `b` (R120, R121). -/
inductive TakenJump (s : State) : Instr → Word → Prop where
  | ifTrue {m0 m1 : Mode} {a b : Word} (h : SourcesAre s m0 m1 a b) (ha : a ≠ 0) :
      TakenJump s (.jumpIfTrue m0 m1) b
  | ifFalse {m0 m1 : Mode} {a b : Word} (h : SourcesAre s m0 m1 a b) (ha : a = 0) :
      TakenJump s (.jumpIfFalse m0 m1) b

/-- The command is a `LOAD`. -/
def Command.isLoad : Command → Bool
  | .load _ _ => true
  | .step => false
  | .supply _ => false
  | .peek _ => false
  | .inspect => false

/-- What holds of a session after every command (R22, R34): its memory is in canonical form and inside
`MEM_WORDS`, IP is in range, the latch and the statuses agree with one another and with the instruction
at IP, and the fault registers agree with STATUS. -/
structure SessionInv (s : State) : Prop where
  /-- the memory list is in its canonical form -/
  canonical   : s.mem.wf = true
  /-- no cell beyond the array holds anything -/
  memInside   : ∀ a, s.memWords ≤ a → s.mem.read a = 0
  /-- R5, R29 -/
  sizeBound   : s.memWords ≤ Config.memMax
  /-- R34 (d) -/
  ipInside    : s.ip ≤ s.memWords
  /-- R34 (a), first half -/
  latchStatus : s.inValid = true → s.status = .running ∨ s.status = .faulted
  /-- R34 (b) -/
  noLatch     : s.status = .needsInput → s.inValid = false
  /-- R34 (a), second half: the session waits at an Input -/
  atInput     : s.inValid = true ∨ s.status = .needsInput → ∃ m, fetchDecode s = .ok (.input m)
  /-- R141: a halted session is at its Halt -/
  atHalt      : s.status = .halted → fetchDecode s = .ok .halt
  /-- R34 (c) -/
  faultIff    : s.faultCause ≠ .none ↔ s.status = .faulted
  /-- R170: the two fault registers belong together -/
  faultPair   : s.faultCause = s.faultReason.cause
  /-- R173 -/
  notStarved  : s.faultReason ≠ .starved

/-- `t` is where a host loop over `Continue` stops within `n` STEPs from `s`: the state after the first STEP
whose result is not `Continue` (R155, R156). -/
def FirstOtherResult (n : Nat) (s t : State) : Prop :=
  t.result ≠ .continues ∧
    ∃ k, k < n ∧ Host.Core.run Sys2Proof.core (k + 1) s = .next t ∧
      ∀ j u, 0 < j → j ≤ k → Host.Core.run Sys2Proof.core j s = .next u → u.result = .continues

end Sys2Proof.Machine
end

