-- ==== Sys2Proof/Certificates/Slice0/Obligations.lean ====
section
/-! DEFINITION. The statements for the provers. `SourceIs`, `DestIs`, `OperandsAre`, `OperandsRaise` and the
like are the words of Sys2Proof/Safety.lean: what the operands of the instruction at IP are, and which
fault resolving them raises. Two fields of the state are the model's own: `result`, what the command
returned (log entry 7), and `host`, the commands the host issues next, STEP when none is listed (log entry
6). A clause that names one of them says it in the model's terms. -/

open Sys2Proof Sys2Proof.Machine

/-! ### Encoding -/

/-- R83 with R62, R68, R69, R70 and R71: the decoder's checks, in order, on the digits R62 extracts. A
negative word is NegativeWord; then an illegal opcode is BadOpcode; then a mode digit above 2 is BadMode,
used or not; then an Immediate destination is ImmediateDest; every other word is an instruction with that
opcode and those modes. The order is decision D9 of the spec. -/
def Obligations.DecodeChecksInOrder : Prop :=
  ∀ w : Word,
    let n := w.toNat
    let op := n % 100
    let m0 := n / 100 % 10
    let m1 := n / 1000 % 10
    let m2 := n / 10000 % 10
    let legal := (1 ≤ op ∧ op ≤ 9) ∨ op = 99
    let modesFit := m0 ≤ 2 ∧ m1 ≤ 2 ∧ m2 ≤ 2
    let immediateDest := ((op = 1 ∨ op = 2 ∨ op = 7 ∨ op = 8) ∧ m2 = 1) ∨ (op = 3 ∧ m0 = 1)
    (w.toInt < 0 → decode w = .error .negativeWord) ∧
      (0 ≤ w.toInt → ¬ legal → decode w = .error .badOpcode) ∧
      (0 ≤ w.toInt → legal → ¬ modesFit → decode w = .error .badMode) ∧
      (0 ≤ w.toInt → legal → modesFit → immediateDest → decode w = .error .immediateDest) ∧
      (0 ≤ w.toInt → legal → modesFit → ¬ immediateDest →
        ∃ i : Instr, decode w = .ok i ∧ i.opcode = op ∧
          i.modes.map Mode.digit = [m0, m1, m2].take i.paramCount)

/-- R62, R64, R67, R72: the words that decode to an instruction are exactly the non-negative ones whose low
two digits are its opcode, whose used mode digits are its modes, and whose unused mode digits are 0, 1 or
2. Digits from d5 up are free. The spec marks R72 as derived. -/
def Obligations.DecodeReadsExactlyTheEncodings : Prop :=
  ∀ (w : Word) (i : Instr), decode w = .ok i ↔
    WellFormed i ∧ 0 ≤ w.toInt ∧ w.toNat % 100 = i.opcode ∧
      (∀ k : Nat, k < 3 → w.toNat / 10 ^ (k + 2) % 10 ≤ 2) ∧
      ∀ (k : Nat) (m : Mode), i.modes[k]? = some m → w.toNat / 10 ^ (k + 2) % 10 = m.digit

/-- R76, R79: a well-formed instruction's canonical word decodes to it, every operand mode at every value
the encoding admits, and it is the least of all words that do. The spec marks R79 as derived. -/
def Obligations.CanonicalWordDecodesAndIsLeast : Prop :=
  ∀ i : Instr, WellFormed i →
    decode (encode i) = .ok i ∧ ∀ w : Word, decode w = .ok i → (encode i).toNat ≤ w.toNat

/-- R72 (a): digits d5 and above take no part: two non-negative words with the same five low digits decode
alike, errors included. The spec marks R72 as derived. -/
def Obligations.HighDigitsAreIgnored : Prop :=
  ∀ w w' : Word, 0 ≤ w.toInt → 0 ≤ w'.toInt → w.toNat % 100000 = w'.toNat % 100000 →
    decode w = decode w'

/-- R63: a word too short to have the mode digit of parameter `k` has mode Position there. -/
def Obligations.AbsentDigitsArePosition : Prop :=
  ∀ w k : Nat, w < 10 ^ (k + 2) → Mode.ofDigit (modeDigit w k) = some .position

/-- R78, R79, R72 (b): instruction words written out from the spec, one at least for every opcode, decode to the
instructions they stand for. The last word, with unused mode digits, is the example of R72 (b) (log entry 22).
The spec marks these rules as derived. -/
def Obligations.SpecWordsDecode : Prop :=
  decode 21201#64 = .ok (.add .relative .immediate .relative) ∧
    decode 1002#64 = .ok (.mul .position .immediate .position) ∧
    decode 203#64 = .ok (.input .relative) ∧
    decode 104#64 = .ok (.output .immediate) ∧
    decode 2105#64 = .ok (.jumpIfTrue .immediate .relative) ∧
    decode 1206#64 = .ok (.jumpIfFalse .relative .immediate) ∧
    decode 20107#64 = .ok (.lessThan .immediate .position .relative) ∧
    decode 2008#64 = .ok (.equals .position .relative .position) ∧
    decode 109#64 = .ok (.adjustBase .immediate) ∧
    decode 1199#64 = .ok .halt

/-- R60, R74: an instruction's length is a function of its opcode alone: 4 for 1, 2, 7, 8; 2 for 3, 4, 9; 3
for 5, 6; 1 for 99. -/
def Obligations.LengthFollowsOpcode : Prop :=
  ∀ i : Instr,
    ((i.opcode = 1 ∨ i.opcode = 2 ∨ i.opcode = 7 ∨ i.opcode = 8) ∧ i.length = 4) ∨
      ((i.opcode = 3 ∨ i.opcode = 4 ∨ i.opcode = 9) ∧ i.length = 2) ∨
      ((i.opcode = 5 ∨ i.opcode = 6) ∧ i.length = 3) ∨
      (i.opcode = 99 ∧ i.length = 1)

/-! ### Operands -/

/-- R84: the literal of parameter `k` is the cell at IP + 1 + k; beyond the array it raises
ParamOutOfRange. -/
def Obligations.LiteralIsTheParameterCell : Prop :=
  ∀ (s : State) (k : Nat),
    (s.memWords ≤ s.ip + 1 + k → literal s k = .error (.address .paramOutOfRange)) ∧
      (s.ip + 1 + k < s.memWords → literal s k = .ok (s.mem.read (s.ip + 1 + k)))

/-- R85: the source resolver's values and faults are exactly those of the rule, in every mode. -/
def Obligations.SourceOperandFollowsItsMode : Prop :=
  ∀ (s : State) (k : Nat) (m : Mode),
    (∀ v, src s k m = .ok v ↔ SourceIs s k m v) ∧ ∀ e, src s k m = .error e ↔ SourceRaises s k m e

/-- R86: the destination resolver's addresses and faults are exactly those of the rule, in both modes a
destination has. -/
def Obligations.DestinationOperandFollowsItsMode : Prop :=
  ∀ (s : State) (k : Nat) (m : Mode), m ≠ .immediate →
    (∀ d, dst s k m = .ok d ↔ DestIs s k m d) ∧ ∀ e, dst s k m = .error e ↔ DestRaises s k m e

/-- R87: the effective address `lit + RB` is the exact sum, in [-2^64, 2^64 - 2], and forming it never
raises OverflowError: a sum below 0 gives the Negative fault of a source or a destination, a sum of
MEM_WORDS or more the OutOfRange fault (decision D8 of the spec). -/
def Obligations.EffectiveAddressIsExact : Prop :=
  ∀ (s : State) (k : Nat) (lit : Word), LiteralIs s k lit →
    let sum : Int := lit.toInt + s.rb.toInt
    (-2 ^ 64 ≤ sum ∧ sum ≤ 2 ^ 64 - 2) ∧
      (sum < 0 → src s k .relative = .error (.address .srcNegative) ∧
        dst s k .relative = .error (.address .dstNegative)) ∧
      (0 ≤ sum → (s.memWords : Int) ≤ sum → src s k .relative = .error (.address .srcOutOfRange) ∧
        dst s k .relative = .error (.address .dstOutOfRange)) ∧
      (0 ≤ sum → sum < (s.memWords : Int) → src s k .relative = .ok (s.mem.read sum.toNat) ∧
        dst s k .relative = .ok sum.toNat)

/-! ### The instructions -/

/-- R100. Add: its canonical word; then, in any state, the first fault of its operands; an exact sum that no
cell holds raises AddOverflow (decision D3 of the spec); otherwise the destination cell becomes the sum,
IP moves on by 4, the result is Continue, and nothing else changes. -/
def Obligations.AddWritesTheSum : Prop :=
  ∀ (m0 m1 m2 : Mode) (s : State), m2 ≠ .immediate →
    (encode (.add m0 m1 m2)).toNat = 1 + 100 * m0.digit + 1000 * m1.digit + 10000 * m2.digit ∧
      (∀ e, OperandsRaise s m0 m1 m2 e → exec (.add m0 m1 m2) s = .next (s.raise e)) ∧
      (∀ a b d, OperandsAre s m0 m1 m2 a b d → ¬ Representable (a.toInt + b.toInt) →
        exec (.add m0 m1 m2) s = .next (s.raise (.overflow .addOverflow))) ∧
      (∀ a b d, OperandsAre s m0 m1 m2 a b d → Representable (a.toInt + b.toInt) →
        ∃ r : Word, r.toInt = a.toInt + b.toInt ∧
          exec (.add m0 m1 m2) s =
            .next { s with mem := s.mem.write d r, ip := s.ip + 4, result := .continues })

/-- R101. Mul: as Add, with the exact signed product and MulOverflow (decision D3 of the spec). The canonical
word is R76's and R79's, which the spec marks as derived. -/
def Obligations.MulWritesTheProduct : Prop :=
  ∀ (m0 m1 m2 : Mode) (s : State), m2 ≠ .immediate →
    (encode (.mul m0 m1 m2)).toNat = 2 + 100 * m0.digit + 1000 * m1.digit + 10000 * m2.digit ∧
      (∀ e, OperandsRaise s m0 m1 m2 e → exec (.mul m0 m1 m2) s = .next (s.raise e)) ∧
      (∀ a b d, OperandsAre s m0 m1 m2 a b d → ¬ Representable (a.toInt * b.toInt) →
        exec (.mul m0 m1 m2) s = .next (s.raise (.overflow .mulOverflow))) ∧
      (∀ a b d, OperandsAre s m0 m1 m2 a b d → Representable (a.toInt * b.toInt) →
        ∃ r : Word, r.toInt = a.toInt * b.toInt ∧
          exec (.mul m0 m1 m2) s =
            .next { s with mem := s.mem.write d r, ip := s.ip + 4, result := .continues })

/-- R110. Input: its canonical word; with no value latched only STATUS changes, whatever its parameter
holds, and the result is NeedsInput; with a value latched, the first fault of its destination, or the
value written, the latch emptied, IP moved on by 2 and Continue. That an Input suspends is decision D1 of
the spec (log entry 10). -/
def Obligations.InputSuspendsOrStoresTheLatch : Prop :=
  ∀ (m : Mode) (s : State), m ≠ .immediate →
    (encode (.input m)).toNat = 3 + 100 * m.digit ∧
      (s.inValid = false →
        exec (.input m) s = .next { s with status := .needsInput, result := .needsInput }) ∧
      (∀ e, s.inValid = true → DestRaises s 0 m e → exec (.input m) s = .next (s.raise e)) ∧
      (∀ d, s.inValid = true → DestIs s 0 m d →
        exec (.input m) s =
          .next { s with mem := s.mem.write d s.inData, inValid := false, ip := s.ip + 2,
                         result := .continues })

/-- R111. Output: its canonical word; the first fault of its operand; otherwise the value is the STEP's
result, IP moves on by 2 and nothing else changes. -/
def Obligations.OutputEmitsItsOperand : Prop :=
  ∀ (m : Mode) (s : State),
    (encode (.output m)).toNat = 4 + 100 * m.digit ∧
      (∀ e, SourceRaises s 0 m e → exec (.output m) s = .next (s.raise e)) ∧
      (∀ a, SourceIs s 0 m a →
        exec (.output m) s = .next { s with ip := s.ip + 2, result := .output a })

/-- R120. JumpIfTrue: its canonical word; the first fault of its two operands, which are both resolved
whether or not it jumps; not taken on 0, with a target that may be anything; taken on every other value,
after the target's check (decision D10 of the spec). -/
def Obligations.JumpIfTrueJumpsOnNonZero : Prop :=
  ∀ (m0 m1 : Mode) (s : State),
    (encode (.jumpIfTrue m0 m1)).toNat = 5 + 100 * m0.digit + 1000 * m1.digit ∧
      (∀ e, SourcesRaise s m0 m1 e → exec (.jumpIfTrue m0 m1) s = .next (s.raise e)) ∧
      (∀ a b, SourcesAre s m0 m1 a b → a.toInt = 0 →
        exec (.jumpIfTrue m0 m1) s = .next { s with ip := s.ip + 3, result := .continues }) ∧
      (∀ a b, SourcesAre s m0 m1 a b → a.toInt ≠ 0 → b.toInt < 0 →
        exec (.jumpIfTrue m0 m1) s = .next (s.raise (.address .jumpNegative))) ∧
      (∀ a b, SourcesAre s m0 m1 a b → a.toInt ≠ 0 → 0 ≤ b.toInt → (s.memWords : Int) ≤ b.toInt →
        exec (.jumpIfTrue m0 m1) s = .next (s.raise (.address .jumpOutOfRange))) ∧
      (∀ a b, SourcesAre s m0 m1 a b → a.toInt ≠ 0 → 0 ≤ b.toInt → b.toInt < (s.memWords : Int) →
        exec (.jumpIfTrue m0 m1) s = .next { s with ip := b.toInt.toNat, result := .continues })

/-- R121. JumpIfFalse: as JumpIfTrue, taken exactly on 0 (decision D10 of the spec). -/
def Obligations.JumpIfFalseJumpsOnZero : Prop :=
  ∀ (m0 m1 : Mode) (s : State),
    (encode (.jumpIfFalse m0 m1)).toNat = 6 + 100 * m0.digit + 1000 * m1.digit ∧
      (∀ e, SourcesRaise s m0 m1 e → exec (.jumpIfFalse m0 m1) s = .next (s.raise e)) ∧
      (∀ a b, SourcesAre s m0 m1 a b → a.toInt ≠ 0 →
        exec (.jumpIfFalse m0 m1) s = .next { s with ip := s.ip + 3, result := .continues }) ∧
      (∀ a b, SourcesAre s m0 m1 a b → a.toInt = 0 → b.toInt < 0 →
        exec (.jumpIfFalse m0 m1) s = .next (s.raise (.address .jumpNegative))) ∧
      (∀ a b, SourcesAre s m0 m1 a b → a.toInt = 0 → 0 ≤ b.toInt → (s.memWords : Int) ≤ b.toInt →
        exec (.jumpIfFalse m0 m1) s = .next (s.raise (.address .jumpOutOfRange))) ∧
      (∀ a b, SourcesAre s m0 m1 a b → a.toInt = 0 → 0 ≤ b.toInt → b.toInt < (s.memWords : Int) →
        exec (.jumpIfFalse m0 m1) s = .next { s with ip := b.toInt.toNat, result := .continues })

/-- R130. LessThan: its canonical word; the first fault of its operands; otherwise the destination cell
becomes exactly 1 if `a < b` as signed integers and 0 if not, and IP moves on by 4. The canonical word is R76's
and R79's, which the spec marks as derived. -/
def Obligations.LessThanWritesSignedComparison : Prop :=
  ∀ (m0 m1 m2 : Mode) (s : State), m2 ≠ .immediate →
    (encode (.lessThan m0 m1 m2)).toNat = 7 + 100 * m0.digit + 1000 * m1.digit + 10000 * m2.digit ∧
      (∀ e, OperandsRaise s m0 m1 m2 e → exec (.lessThan m0 m1 m2) s = .next (s.raise e)) ∧
      (∀ a b d, OperandsAre s m0 m1 m2 a b d → a.toInt < b.toInt →
        exec (.lessThan m0 m1 m2) s =
          .next { s with mem := s.mem.write d 1#64, ip := s.ip + 4, result := .continues }) ∧
      (∀ a b d, OperandsAre s m0 m1 m2 a b d → b.toInt ≤ a.toInt →
        exec (.lessThan m0 m1 m2) s =
          .next { s with mem := s.mem.write d 0#64, ip := s.ip + 4, result := .continues })

/-- R131. Equals: its canonical word; the first fault of its operands; otherwise the destination cell
becomes exactly 1 if `a = b` and 0 if not, and IP moves on by 4. The canonical word is R76's and R79's, which the
spec marks as derived. -/
def Obligations.EqualsWritesEquality : Prop :=
  ∀ (m0 m1 m2 : Mode) (s : State), m2 ≠ .immediate →
    (encode (.equals m0 m1 m2)).toNat = 8 + 100 * m0.digit + 1000 * m1.digit + 10000 * m2.digit ∧
      (∀ e, OperandsRaise s m0 m1 m2 e → exec (.equals m0 m1 m2) s = .next (s.raise e)) ∧
      (∀ a b d, OperandsAre s m0 m1 m2 a b d → a.toInt = b.toInt →
        exec (.equals m0 m1 m2) s =
          .next { s with mem := s.mem.write d 1#64, ip := s.ip + 4, result := .continues }) ∧
      (∀ a b d, OperandsAre s m0 m1 m2 a b d → a.toInt ≠ b.toInt →
        exec (.equals m0 m1 m2) s =
          .next { s with mem := s.mem.write d 0#64, ip := s.ip + 4, result := .continues })

/-- R140. AdjustBase: its canonical word; the first fault of its operand, which is read with the old RB; an
exact sum that no cell holds raises BaseOverflow (decision D3 of the spec); otherwise RB becomes the sum,
IP moves on by 2, and nothing else changes. -/
def Obligations.AdjustBaseAddsToRelativeBase : Prop :=
  ∀ (m : Mode) (s : State),
    (encode (.adjustBase m)).toNat = 9 + 100 * m.digit ∧
      (∀ e, SourceRaises s 0 m e → exec (.adjustBase m) s = .next (s.raise e)) ∧
      (∀ a, SourceIs s 0 m a → ¬ Representable (s.rb.toInt + a.toInt) →
        exec (.adjustBase m) s = .next (s.raise (.overflow .baseOverflow))) ∧
      (∀ a, SourceIs s 0 m a → Representable (s.rb.toInt + a.toInt) →
        ∃ r : Word, r.toInt = s.rb.toInt + a.toInt ∧
          exec (.adjustBase m) s = .next { s with rb := r, ip := s.ip + 2, result := .continues })

/-- R141. Halt: its canonical word; only STATUS changes, so IP stays at the Halt; and in the state it leaves
every STEP and every SUPPLY raises CallerMisuseError, while PEEK and INSPECT still answer. That IP stays is
decision D11 of the spec. -/
def Obligations.HaltStopsPermanently : Prop :=
  ∀ s : State,
    encode .halt = 99#64 ∧
      ∃ t : State, exec .halt s = .next t ∧ t = { s with status := .halted, result := .halted } ∧
        command .step t = .next (t.raise (.misuse .steppedHalted)) ∧
        (∀ v, command (.supply v) t = .next (t.raise (.misuse .supplyNotNeeded))) ∧
        (∀ a : Int, 0 ≤ a → a < (s.memWords : Int) →
          command (.peek a) t = .next { t with result := .value (s.mem.read a.toNat) }) ∧
        command .inspect t =
          .next { t with
            result := .registers
              ⟨.halted, s.ip, s.rb, s.memWords, s.inValid, s.faultCause, s.faultReason⟩ }

/-! ### Frames and what only some instructions can change -/

/-- The frame of the five instructions that store (Add, Mul, Input, LessThan, Equals): every cell but the
one the destination resolver answers reads as before; MEM_WORDS, RB, IN_DATA and the host are unchanged;
IN_VALID is unchanged, or emptied by an Input; STATUS and the fault registers are unchanged, or a fault
was entered, or an Input suspended. -/
def Obligations.StoringInstructionsFrame : Prop :=
  ∀ (i : Instr) (k : Nat) (m : Mode) (s t : State), i.dest = some (k, m) → exec i s = .next t →
    (∀ a, dst s k m ≠ .ok a → t.mem.read a = s.mem.read a) ∧
      t.memWords = s.memWords ∧ t.rb = s.rb ∧ t.inData = s.inData ∧ t.host = s.host ∧
      (t.inValid = s.inValid ∨ (i = .input m ∧ t.inValid = false)) ∧
      ((t.status = s.status ∧ t.faultCause = s.faultCause ∧ t.faultReason = s.faultReason) ∨
        (∃ e, t = s.raise e) ∨
        (i = .input m ∧ t = { s with status := .needsInput, result := .needsInput }))

/-- The frame of the five instructions that store nothing (Output, the jumps, AdjustBase, Halt): every cell
reads as before; MEM_WORDS, the input latch and the host are unchanged; RB is unchanged except by an
AdjustBase; STATUS and the fault registers are unchanged, or a fault was entered, or a Halt halted. -/
def Obligations.NonStoringInstructionsFrame : Prop :=
  ∀ (i : Instr) (s t : State), i.dest = none → exec i s = .next t →
    (∀ a, t.mem.read a = s.mem.read a) ∧
      t.memWords = s.memWords ∧ t.inValid = s.inValid ∧ t.inData = s.inData ∧ t.host = s.host ∧
      (t.rb = s.rb ∨ ∃ m, i = .adjustBase m) ∧
      ((t.status = s.status ∧ t.faultCause = s.faultCause ∧ t.faultReason = s.faultReason) ∨
        (∃ e, t = s.raise e) ∨ (i = .halt ∧ t = { s with status := .halted, result := .halted }))

/-- R176: when a command raises a fault, STATUS, FAULT_CAUSE and FAULT_REASON are written, the command
returns that fault, and nothing else changes (decisions D12 and D13 of the spec). -/
def Obligations.FaultEntryChangesNothingElse : Prop :=
  ∀ (c : Command) (s t : State), s.status ≠ .faulted → command c s = .next t → t.status = .faulted →
    ∃ e : FaultReason, e.cause ≠ .none ∧
      t = { s with status := .faulted, faultCause := e.cause, faultReason := e,
                   result := .fault e.cause e }

/-- R23: RB changes in a step only by a LOAD, or by an AdjustBase at IP, which adds its whole operand. -/
def Obligations.OnlyAdjustBaseMovesRelativeBase : Prop :=
  ∀ s t : State, step s = .next t → t.rb ≠ s.rb →
    s.nextCommand.isLoad = true ∨
      (s.nextCommand = .step ∧ ∃ m a, fetchDecode s = .ok (.adjustBase m) ∧ SourceIs s 0 m a ∧
        t.rb.toInt = s.rb.toInt + a.toInt)

/-- R58: a cell changes in a step only by a LOAD, or by one of the five writing instructions at IP, and
then it is the cell its destination parameter names. -/
def Obligations.OnlyDestinationCellsChange : Prop :=
  ∀ (s t : State) (a : Nat), step s = .next t → t.mem.read a ≠ s.mem.read a →
    s.nextCommand.isLoad = true ∨
      (s.nextCommand = .step ∧ ∃ i k m, fetchDecode s = .ok i ∧ i.dest = some (k, m) ∧ DestIs s k m a)

/-- R22, R90: IP changes in a step only by a LOAD, which sets it to 0, by sequential advance over the length
of the instruction at IP, or by a taken jump, which sets it to its target inside the array. -/
def Obligations.InstructionPointerMovesOnlyByRule : Prop :=
  ∀ s t : State, step s = .next t → t.ip ≠ s.ip →
    (s.nextCommand.isLoad = true ∧ t.ip = 0) ∨
      (s.nextCommand = .step ∧ ∃ i, fetchDecode s = .ok i ∧
        ((t.ip = s.ip + i.length ∧ i ≠ .halt ∧ ∀ b, ¬ TakenJump s i b) ∨
          ∃ b, TakenJump s i b ∧ (t.ip : Int) = b.toInt ∧ t.ip < s.memWords))

/-- R29: MEM_WORDS changes in a step only by a LOAD. -/
def Obligations.MemoryNeverGrows : Prop :=
  ∀ s t : State, step s = .next t → t.memWords ≠ s.memWords → s.nextCommand.isLoad = true

/-! ### STEP and the other commands -/

/-- R81: when the host's next command is STEP, the session is running, and the word at IP decodes to `i`,
one step is the execution of `i` in that state, with the command taken from the host's list (log entry 6). -/
def Obligations.StepRunsTheDecodedInstruction : Prop :=
  ∀ (s : State) (i : Instr), s.status = .running → s.ip < s.memWords → decode (s.mem.read s.ip) = .ok i →
    (s.host = [] → step s = exec i s) ∧
      ∀ rest, s.host = .step :: rest → step s = exec i { s with host := rest }

/-- R81, R82, R174: the stages of STEP before the instruction, each ending the command: the recorded fault
of a faulted session, SteppedHalted, StepWithoutSupply, FetchOutOfRange, the decoder's error; else the
instruction. -/
def Obligations.StepStagesInOrder : Prop :=
  ∀ s : State,
    (s.status = .faulted →
        command .step s = .next { s with result := .fault s.faultCause s.faultReason }) ∧
      (s.status = .halted → command .step s = .next (s.raise (.misuse .steppedHalted))) ∧
      (s.status = .needsInput → command .step s = .next (s.raise (.misuse .stepWithoutSupply))) ∧
      (s.status = .running → s.memWords ≤ s.ip →
        command .step s = .next (s.raise (.address .fetchOutOfRange))) ∧
      (∀ e, s.status = .running → s.ip < s.memWords → decode (s.mem.read s.ip) = .error e →
        command .step s = .next (s.raise (.decode e))) ∧
      (∀ i, s.status = .running → s.ip < s.memWords → decode (s.mem.read s.ip) = .ok i →
        command .step s = exec i s)

/-- R10, R93: a step always answers a next state: no word, operand, status or command stops the machine. -/
def Obligations.EveryStepAnswers : Prop :=
  ∀ s : State, ∃ t, step s = .next t

/-- R80: what each result of executing an instruction says: Continue of an instruction other than Output
and Halt, Output of an Output with its operand, NeedsInput of an Input with no value latched, Halted of a
Halt, and Fault of a fault entered. There is no other result. -/
def Obligations.ResultsTellWhatRan : Prop :=
  ∀ (i : Instr) (s t : State), exec i s = .next t →
    (t.result = .continues ∧ (∀ m, i ≠ .output m) ∧ i ≠ .halt) ∨
      (∃ m v, t.result = .output v ∧ i = .output m ∧ SourceIs s 0 m v) ∨
      (∃ m, t.result = .needsInput ∧ i = .input m ∧ s.inValid = false) ∨
      (t.result = .halted ∧ i = .halt) ∨
      ∃ e, t.result = .fault e.cause e ∧ t = s.raise e

/-- R55, R52: a store is seen by the very next fetch. Each of the five storing instructions leaves the value it
stores in its cell. Where that cell is the word of the next instruction, the next step runs the
instruction the stored value encodes or raises its decode error, never the one that stood there; where it
is a parameter cell of the next instruction, that parameter has the stored value. That the next step is a
STEP is said by the model's host list (log entry 6). -/
def Obligations.NextFetchSeesTheStore : Prop :=
  ∀ (i : Instr) (s : State) (d : Nat) (r : Word),
    s.mem.wf = true → s.host = [] → s.status = .running → Stores s i d r →
    ∃ t, exec i s = .next t ∧ t.ip = s.ip + i.length ∧ t.mem.read d = r ∧
      (d = s.ip + i.length →
        (∀ j, decode r = .ok j → step t = exec j t) ∧
          ∀ e, decode r = .error e → step t = .next (t.raise (.decode e))) ∧
      ∀ k, d = s.ip + i.length + 1 + k → LiteralIs t k r

/-- R110, R152: the input protocol. From a running session at an Input with an empty latch, the commands
STEP, SUPPLY(v), STEP write `v` to the cell the Input names and go on behind it; the first STEP changed
STATUS alone. The host's list of commands is the model's (log entry 6). -/
def Obligations.InputTakesStepSupplyStep : Prop :=
  ∀ (s : State) (m : Mode) (v : Word) (d : Nat),
    s.status = .running → s.inValid = false → fetchDecode s = .ok (.input m) → DestIs s 0 m d →
    s.host = [.step, .supply v, .step] →
    Host.Core.run Sys2Proof.core 1 s =
        .next { s with status := .needsInput, host := [.supply v, .step], result := .needsInput } ∧
      Host.Core.run Sys2Proof.core 3 s =
        .next { s with mem := s.mem.write d v, ip := s.ip + 2, inData := v, host := [],
                       result := .continues }

/-- R152: SUPPLY latches the value of a session that asked for one; asked for nothing, it is
SupplyNotNeeded; of a faulted session it returns the recorded fault and changes nothing (decision D17 of the
spec). -/
def Obligations.SupplyLatchesOnlyOnRequest : Prop :=
  ∀ (s : State) (v : Word),
    (s.status = .faulted →
        command (.supply v) s = .next { s with result := .fault s.faultCause s.faultReason }) ∧
      (s.status = .running ∨ s.status = .halted →
        command (.supply v) s =
          .next { s with status := .faulted, faultCause := .callerMisuseError,
                         faultReason := .misuse .supplyNotNeeded,
                         result := .fault .callerMisuseError (.misuse .supplyNotNeeded) }) ∧
      (s.status = .needsInput →
        command (.supply v) s =
          .next { s with inData := v, inValid := true, status := .running, result := .accepted })

/-- R153: PEEK answers the cell's value inside the array and NoSuchCell outside, INSPECT answers the
register tuple, in every status, and neither changes any state. -/
def Obligations.PeekAndInspectOnlyRead : Prop :=
  ∀ (s : State) (a : Int),
    (0 ≤ a → a < (s.memWords : Int) →
        command (.peek a) s = .next { s with result := .value (s.mem.read a.toNat) }) ∧
      (a < 0 ∨ (s.memWords : Int) ≤ a → command (.peek a) s = .next { s with result := .noSuchCell }) ∧
      command .inspect s =
        .next { s with
          result := .registers
            ⟨s.status, s.ip, s.rb, s.memWords, s.inValid, s.faultCause, s.faultReason⟩ }

/-- R151, R32, R48: a LOAD whose arguments are in range puts every piece of state at its reset value,
whatever the session was: the program in the first cells and 0 in all others. RB = 0 is marked in R32 as
general knowledge, and the bound 2^63 on the size is the model's choice (log entry 4). That the memory is a
list in canonical form, with 0 at every index beyond MEM_WORDS, is of the model's own making (log entry 1).
Any other LOAD is refused and changes nothing. -/
def Obligations.LoadPutsTheResetValues : Prop :=
  ∀ (program : List Int) (padding : Int) (s : State),
    let accepted := (∀ v ∈ program, Representable v) ∧ 0 ≤ padding ∧
      (program.length : Int) + padding ≤ (Config.memMax : Int)
    (accepted → ∃ t, command (.load program padding) s = .next t ∧
        (t.memWords : Int) = program.length + padding ∧ t.mem.wf = true ∧
        (∀ (i : Nat) (v : Int), program[i]? = some v → (t.mem.read i).toInt = v) ∧
        (∀ i : Nat, program.length ≤ i → t.mem.read i = 0) ∧
        t.ip = 0 ∧ t.rb = 0 ∧ t.status = .running ∧ t.inValid = false ∧
        t.faultCause = .none ∧ t.faultReason = .none ∧ t.result = .loaded) ∧
      (¬ accepted → command (.load program padding) s = .next { s with result := .loadRefused })

/-- R178: a faulted session stays exactly as it is, the first fault kept, through any number of commands
that are not LOAD; only what the command returns changes, and STEP and SUPPLY return the recorded fault. -/
def Obligations.FaultedIsAbsorbing : Prop :=
  ∀ (n : Nat) (s : State), s.status = .faulted → (∀ c ∈ s.host.take n, c.isLoad = false) →
    (∃ r, Host.Core.run Sys2Proof.core n s = .next { s with host := s.host.drop n, result := r }) ∧
      command .step s = .next { s with result := .fault s.faultCause s.faultReason } ∧
      ∀ v, command (.supply v) s = .next { s with result := .fault s.faultCause s.faultReason }

/-- R173: the CORE never raises StarvedInputError: no step puts it into FAULT_REASON or FAULT_CAUSE. -/
def Obligations.CoreNeverStarves : Prop :=
  ∀ s t : State, step s = .next t →
    (t.faultReason = .starved → s.faultReason = .starved) ∧
      (t.faultCause = .starvedInputError → s.faultCause = .starvedInputError)

/-! ### Arithmetic -/

/-- R6: `wrap64(v)` is the one cell value congruent to `v` modulo 2^64. The spec marks R6 as derived. -/
def Obligations.WrapIsTheUniqueCongruentValue : Prop :=
  ∀ (v : Int) (r : Word), (∃ k : Int, r.toInt = v + k * 2 ^ 64) ↔ r = wrap64 v

/-- R102, R175: the results of Add, Mul and AdjustBase at both values of OVF_POLICY: the exact result where a
cell holds it; else OverflowError at `fault`, and the congruent cell value at `wrap` (decision D3 of the spec). -/
def Obligations.OverflowFollowsThePolicy : Prop :=
  let follows := fun (why : OverflowReason) (exact : Int)
      (result : Config.OvfPolicy → Except FaultReason Word) =>
    (Representable exact → ∀ p, ∃ r : Word, r.toInt = exact ∧ result p = .ok r) ∧
      (¬ Representable exact → result .fault = .error (.overflow why) ∧
        ∃ (r : Word) (k : Int), r.toInt = exact + k * 2 ^ 64 ∧ result .wrap = .ok r)
  ∀ a b : Word,
    follows .addOverflow (a.toInt + b.toInt) (fun p => addResult p a b) ∧
      follows .mulOverflow (a.toInt * b.toInt) (fun p => mulResult p a b) ∧
      follows .baseOverflow (a.toInt + b.toInt) (fun p => baseResult p a b)

/-! ### The session as a whole -/

/-- R22, R34: the invariant of a session holds after every step from every state it holds in, whichever of
the five commands the step carries out. The spec marks R34 as derived; that the memory list is canonical and
holds nothing beyond MEM_WORDS is of the model's own making (log entry 1). -/
def Obligations.StepKeepsTheInvariant : Prop :=
  ∀ s t : State, SessionInv s → step s = .next t → SessionInv t

/-- R32, R34: the reset state meets the invariant. Which LOAD it comes from is the model's choice (log entry
4). -/
def Obligations.ResetMeetsTheInvariant : Prop := SessionInv State.reset

/-- R200, R202: the reset state is what `LOAD([], 2^63)` leaves of any session whose host lists no command.
The empty program and the size are the model's choice (log entry 4), IN_DATA = 0 too (log entry 8). -/
def Obligations.ResetIsALoad : Prop :=
  ∀ s : State, s.host = [] → command (.load [] (2 ^ 63)) s = .next State.reset

/-- R27, R32: IN_DATA is never read while IN_VALID is 0. Two sessions that differ only in it go on alike, and
when a value is latched again they are equal. So the model's reset value of IN_DATA (log entry 8) is never
seen. -/
def Obligations.EmptyLatchIsNeverRead : Prop :=
  ∀ (s t : State) (v : Word), s.inValid = false → step s = .next t →
    ∃ u, step { s with inData := v } = .next u ∧ (u = t ∨ u = { t with inData := v }) ∧
      (t.inValid = true → u = t)

/-- R33, R187: sessions share nothing: a command to one leaves every other as it is, and commands to two
sessions give the same in either order. -/
def Obligations.SessionsDoNotInterfere : Prop :=
  ∀ (sessions : List State) (i j : Nat) (c d : Command), i ≠ j →
    (commandSession sessions i c)[j]? = sessions[j]? ∧
      commandSession (commandSession sessions i c) j d = commandSession (commandSession sessions j d) i c

/-- R155, R156: `run_until_output_or_halt` and "drive until NeedsInput" stop exactly on the first STEP result
that is not Continue and hand that session back, whatever the result is: if there is such a STEP within
the bound they answer the state after it, and they answer nothing else. The bound on the number of STEPs is
the model's choice (log entry 17), and so is the host list that is empty here (log entry 6). -/
def Obligations.RunStopsAtFirstOtherResult : Prop :=
  ∀ (n : Nat) (s t : State), s.host = [] →
    (runUntilOutputOrHalt n s = some t ↔ FirstOtherResult n s t) ∧
      (driveUntilNeedsInput n s = some t ↔ FirstOtherResult n s t)

/-- R157: the strict wrapper with no input left reports StarvedInputError when the session asks for a value,
and leaves the session in NeedsInput. What the wrapper does on other results is the model's choice (log entry
23), and no part of this statement. -/
def Obligations.StrictWrapperReportsStarvation : Prop :=
  ∀ (n : Nat) (s : State) (m : Mode), s.status = .running → s.inValid = false →
    fetchDecode s = .ok (.input m) →
    drive true (n + 1) [] s =
      some { outputs := [], answer := .fault .starvedInputError .starved,
             session := { s with status := .needsInput, result := .needsInput } }

/-! ### Memory -/

/-- R46, R52: what a cell holds after a write, 0 included: the cell written holds the value, and every other
cell holds what it held. That the memory is a list in canonical form is the model's own making (log entry
1). -/
def Obligations.ReadAfterWrite : Prop :=
  ∀ (m : Memory) (a b : Nat) (v : Word), m.wf = true →
    (m.write a v).read b = if b = a then v else m.read b
end

