-- ==== Sys2Proof/Laws/Arithmetic.lean ====
section
/-! SUPPORT. Exact results and cells: what fits, and what narrowing an exact result answers. -/

namespace Sys2Proof.Machine

/-- `fits64` decides `Representable`. -/
theorem fits64_iff (v : Int) : fits64 v = true ↔ Representable v := by
  rw [fits64, Bool.and_eq_true, decide_eq_true_iff, decide_eq_true_iff]
  exact Iff.rfl

/-- A representable integer survives being stored in a cell. -/
theorem toInt_wrap64 {v : Int} (h : Representable v) : (wrap64 v).toInt = v := by
  obtain ⟨low, high⟩ := h
  rw [wrap64, BitVec.toInt_ofInt]
  exact Int.bmod_eq_of_le (by omega) (by omega)

/-- Every cell value is representable. -/
theorem representable_toInt (w : Word) : Representable w.toInt := by
  have low := BitVec.le_toInt w
  have high := BitVec.toInt_lt (x := w)
  exact ⟨by omega, by omega⟩

/-- What narrowing an exact result answers (R102). -/
theorem narrow_cases (p : Config.OvfPolicy) (why : OverflowReason) (v : Int) :
    (Representable v ∧ ∃ r : Word, r.toInt = v ∧ narrow p why v = .ok r) ∨
      (¬ Representable v ∧ p = .fault ∧ narrow p why v = .error (.overflow why)) ∨
      (¬ Representable v ∧ p = .wrap ∧ narrow p why v = .ok (wrap64 v)) := by
  by_cases h : Representable v
  · refine .inl ⟨h, _, toInt_wrap64 h, ?_⟩
    simp [narrow, (fits64_iff v).2 h]
  · have hf : fits64 v = false := by
      rw [Bool.eq_false_iff]
      exact fun hv => h ((fits64_iff v).1 hv)
    cases p with
    | fault => exact .inr (.inl ⟨h, rfl, by simp [narrow, hf]⟩)
    | wrap => exact .inr (.inr ⟨h, rfl, by simp [narrow, hf]⟩)

end Sys2Proof.Machine
end

