-- ==== Sys2Proof/Laws/State.lean ====
section
/-! SUPPORT. What each named update leaves in each field of the state, one lemma per field and update, so that no
proof unfolds a record update. -/

namespace Sys2Proof.Machine

/-! ### `store` -/

@[simp] theorem State.store_mem (s : State) (a : Nat) (v : Word) : (s.store a v).mem = s.mem.write a v := rfl
@[simp] theorem State.store_memWords (s : State) (a : Nat) (v : Word) : (s.store a v).memWords = s.memWords := rfl
@[simp] theorem State.store_ip (s : State) (a : Nat) (v : Word) : (s.store a v).ip = s.ip := rfl
@[simp] theorem State.store_rb (s : State) (a : Nat) (v : Word) : (s.store a v).rb = s.rb := rfl
@[simp] theorem State.store_status (s : State) (a : Nat) (v : Word) : (s.store a v).status = s.status := rfl
@[simp] theorem State.store_inValid (s : State) (a : Nat) (v : Word) : (s.store a v).inValid = s.inValid := rfl
@[simp] theorem State.store_inData (s : State) (a : Nat) (v : Word) : (s.store a v).inData = s.inData := rfl
@[simp] theorem State.store_faultCause (s : State) (a : Nat) (v : Word) : (s.store a v).faultCause = s.faultCause := rfl
@[simp] theorem State.store_faultReason (s : State) (a : Nat) (v : Word) : (s.store a v).faultReason = s.faultReason := rfl
@[simp] theorem State.store_host (s : State) (a : Nat) (v : Word) : (s.store a v).host = s.host := rfl
@[simp] theorem State.store_result (s : State) (a : Nat) (v : Word) : (s.store a v).result = s.result := rfl

/-! ### `advance` -/

@[simp] theorem State.advance_mem (s : State) (n : Nat) : (s.advance n).mem = s.mem := rfl
@[simp] theorem State.advance_memWords (s : State) (n : Nat) : (s.advance n).memWords = s.memWords := rfl
@[simp] theorem State.advance_ip (s : State) (n : Nat) : (s.advance n).ip = s.ip + n := rfl
@[simp] theorem State.advance_rb (s : State) (n : Nat) : (s.advance n).rb = s.rb := rfl
@[simp] theorem State.advance_status (s : State) (n : Nat) : (s.advance n).status = s.status := rfl
@[simp] theorem State.advance_inValid (s : State) (n : Nat) : (s.advance n).inValid = s.inValid := rfl
@[simp] theorem State.advance_inData (s : State) (n : Nat) : (s.advance n).inData = s.inData := rfl
@[simp] theorem State.advance_faultCause (s : State) (n : Nat) : (s.advance n).faultCause = s.faultCause := rfl
@[simp] theorem State.advance_faultReason (s : State) (n : Nat) : (s.advance n).faultReason = s.faultReason := rfl
@[simp] theorem State.advance_host (s : State) (n : Nat) : (s.advance n).host = s.host := rfl
@[simp] theorem State.advance_result (s : State) (n : Nat) : (s.advance n).result = s.result := rfl

/-! ### `jumpTo` -/

@[simp] theorem State.jumpTo_mem (s : State) (t : Nat) : (s.jumpTo t).mem = s.mem := rfl
@[simp] theorem State.jumpTo_memWords (s : State) (t : Nat) : (s.jumpTo t).memWords = s.memWords := rfl
@[simp] theorem State.jumpTo_ip (s : State) (t : Nat) : (s.jumpTo t).ip = t := rfl
@[simp] theorem State.jumpTo_rb (s : State) (t : Nat) : (s.jumpTo t).rb = s.rb := rfl
@[simp] theorem State.jumpTo_status (s : State) (t : Nat) : (s.jumpTo t).status = s.status := rfl
@[simp] theorem State.jumpTo_inValid (s : State) (t : Nat) : (s.jumpTo t).inValid = s.inValid := rfl
@[simp] theorem State.jumpTo_inData (s : State) (t : Nat) : (s.jumpTo t).inData = s.inData := rfl
@[simp] theorem State.jumpTo_faultCause (s : State) (t : Nat) : (s.jumpTo t).faultCause = s.faultCause := rfl
@[simp] theorem State.jumpTo_faultReason (s : State) (t : Nat) : (s.jumpTo t).faultReason = s.faultReason := rfl
@[simp] theorem State.jumpTo_host (s : State) (t : Nat) : (s.jumpTo t).host = s.host := rfl
@[simp] theorem State.jumpTo_result (s : State) (t : Nat) : (s.jumpTo t).result = s.result := rfl

/-! ### `setBase` -/

@[simp] theorem State.setBase_mem (s : State) (r : Word) : (s.setBase r).mem = s.mem := rfl
@[simp] theorem State.setBase_memWords (s : State) (r : Word) : (s.setBase r).memWords = s.memWords := rfl
@[simp] theorem State.setBase_ip (s : State) (r : Word) : (s.setBase r).ip = s.ip := rfl
@[simp] theorem State.setBase_rb (s : State) (r : Word) : (s.setBase r).rb = r := rfl
@[simp] theorem State.setBase_status (s : State) (r : Word) : (s.setBase r).status = s.status := rfl
@[simp] theorem State.setBase_inValid (s : State) (r : Word) : (s.setBase r).inValid = s.inValid := rfl
@[simp] theorem State.setBase_inData (s : State) (r : Word) : (s.setBase r).inData = s.inData := rfl
@[simp] theorem State.setBase_faultCause (s : State) (r : Word) : (s.setBase r).faultCause = s.faultCause := rfl
@[simp] theorem State.setBase_faultReason (s : State) (r : Word) : (s.setBase r).faultReason = s.faultReason := rfl
@[simp] theorem State.setBase_host (s : State) (r : Word) : (s.setBase r).host = s.host := rfl
@[simp] theorem State.setBase_result (s : State) (r : Word) : (s.setBase r).result = s.result := rfl

/-! ### `consumeInput` -/

@[simp] theorem State.consumeInput_mem (s : State) : (s.consumeInput).mem = s.mem := rfl
@[simp] theorem State.consumeInput_memWords (s : State) : (s.consumeInput).memWords = s.memWords := rfl
@[simp] theorem State.consumeInput_ip (s : State) : (s.consumeInput).ip = s.ip := rfl
@[simp] theorem State.consumeInput_rb (s : State) : (s.consumeInput).rb = s.rb := rfl
@[simp] theorem State.consumeInput_status (s : State) : (s.consumeInput).status = s.status := rfl
@[simp] theorem State.consumeInput_inValid (s : State) : (s.consumeInput).inValid = false := rfl
@[simp] theorem State.consumeInput_inData (s : State) : (s.consumeInput).inData = s.inData := rfl
@[simp] theorem State.consumeInput_faultCause (s : State) : (s.consumeInput).faultCause = s.faultCause := rfl
@[simp] theorem State.consumeInput_faultReason (s : State) : (s.consumeInput).faultReason = s.faultReason := rfl
@[simp] theorem State.consumeInput_host (s : State) : (s.consumeInput).host = s.host := rfl
@[simp] theorem State.consumeInput_result (s : State) : (s.consumeInput).result = s.result := rfl

/-! ### `latchInput` -/

@[simp] theorem State.latchInput_mem (s : State) (v : Word) : (s.latchInput v).mem = s.mem := rfl
@[simp] theorem State.latchInput_memWords (s : State) (v : Word) : (s.latchInput v).memWords = s.memWords := rfl
@[simp] theorem State.latchInput_ip (s : State) (v : Word) : (s.latchInput v).ip = s.ip := rfl
@[simp] theorem State.latchInput_rb (s : State) (v : Word) : (s.latchInput v).rb = s.rb := rfl
@[simp] theorem State.latchInput_status (s : State) (v : Word) : (s.latchInput v).status = s.status := rfl
@[simp] theorem State.latchInput_inValid (s : State) (v : Word) : (s.latchInput v).inValid = true := rfl
@[simp] theorem State.latchInput_inData (s : State) (v : Word) : (s.latchInput v).inData = v := rfl
@[simp] theorem State.latchInput_faultCause (s : State) (v : Word) : (s.latchInput v).faultCause = s.faultCause := rfl
@[simp] theorem State.latchInput_faultReason (s : State) (v : Word) : (s.latchInput v).faultReason = s.faultReason := rfl
@[simp] theorem State.latchInput_host (s : State) (v : Word) : (s.latchInput v).host = s.host := rfl
@[simp] theorem State.latchInput_result (s : State) (v : Word) : (s.latchInput v).result = s.result := rfl

/-! ### `setStatus` -/

@[simp] theorem State.setStatus_mem (s : State) (x : Status) : (s.setStatus x).mem = s.mem := rfl
@[simp] theorem State.setStatus_memWords (s : State) (x : Status) : (s.setStatus x).memWords = s.memWords := rfl
@[simp] theorem State.setStatus_ip (s : State) (x : Status) : (s.setStatus x).ip = s.ip := rfl
@[simp] theorem State.setStatus_rb (s : State) (x : Status) : (s.setStatus x).rb = s.rb := rfl
@[simp] theorem State.setStatus_status (s : State) (x : Status) : (s.setStatus x).status = x := rfl
@[simp] theorem State.setStatus_inValid (s : State) (x : Status) : (s.setStatus x).inValid = s.inValid := rfl
@[simp] theorem State.setStatus_inData (s : State) (x : Status) : (s.setStatus x).inData = s.inData := rfl
@[simp] theorem State.setStatus_faultCause (s : State) (x : Status) : (s.setStatus x).faultCause = s.faultCause := rfl
@[simp] theorem State.setStatus_faultReason (s : State) (x : Status) : (s.setStatus x).faultReason = s.faultReason := rfl
@[simp] theorem State.setStatus_host (s : State) (x : Status) : (s.setStatus x).host = s.host := rfl
@[simp] theorem State.setStatus_result (s : State) (x : Status) : (s.setStatus x).result = s.result := rfl

/-! ### `answer` -/

@[simp] theorem State.answer_mem (s : State) (r : Response) : (s.answer r).mem = s.mem := rfl
@[simp] theorem State.answer_memWords (s : State) (r : Response) : (s.answer r).memWords = s.memWords := rfl
@[simp] theorem State.answer_ip (s : State) (r : Response) : (s.answer r).ip = s.ip := rfl
@[simp] theorem State.answer_rb (s : State) (r : Response) : (s.answer r).rb = s.rb := rfl
@[simp] theorem State.answer_status (s : State) (r : Response) : (s.answer r).status = s.status := rfl
@[simp] theorem State.answer_inValid (s : State) (r : Response) : (s.answer r).inValid = s.inValid := rfl
@[simp] theorem State.answer_inData (s : State) (r : Response) : (s.answer r).inData = s.inData := rfl
@[simp] theorem State.answer_faultCause (s : State) (r : Response) : (s.answer r).faultCause = s.faultCause := rfl
@[simp] theorem State.answer_faultReason (s : State) (r : Response) : (s.answer r).faultReason = s.faultReason := rfl
@[simp] theorem State.answer_host (s : State) (r : Response) : (s.answer r).host = s.host := rfl
@[simp] theorem State.answer_result (s : State) (r : Response) : (s.answer r).result = r := rfl

/-! ### `raise` -/

@[simp] theorem State.raise_mem (s : State) (e : FaultReason) : (s.raise e).mem = s.mem := rfl
@[simp] theorem State.raise_memWords (s : State) (e : FaultReason) : (s.raise e).memWords = s.memWords := rfl
@[simp] theorem State.raise_ip (s : State) (e : FaultReason) : (s.raise e).ip = s.ip := rfl
@[simp] theorem State.raise_rb (s : State) (e : FaultReason) : (s.raise e).rb = s.rb := rfl
@[simp] theorem State.raise_status (s : State) (e : FaultReason) : (s.raise e).status = .faulted := rfl
@[simp] theorem State.raise_inValid (s : State) (e : FaultReason) : (s.raise e).inValid = s.inValid := rfl
@[simp] theorem State.raise_inData (s : State) (e : FaultReason) : (s.raise e).inData = s.inData := rfl
@[simp] theorem State.raise_faultCause (s : State) (e : FaultReason) : (s.raise e).faultCause = e.cause := rfl
@[simp] theorem State.raise_faultReason (s : State) (e : FaultReason) : (s.raise e).faultReason = e := rfl
@[simp] theorem State.raise_host (s : State) (e : FaultReason) : (s.raise e).host = s.host := rfl
@[simp] theorem State.raise_result (s : State) (e : FaultReason) : (s.raise e).result = .fault e.cause e := rfl

/-! ### `returnFault` -/

@[simp] theorem State.returnFault_mem (s : State) : (s.returnFault).mem = s.mem := rfl
@[simp] theorem State.returnFault_memWords (s : State) : (s.returnFault).memWords = s.memWords := rfl
@[simp] theorem State.returnFault_ip (s : State) : (s.returnFault).ip = s.ip := rfl
@[simp] theorem State.returnFault_rb (s : State) : (s.returnFault).rb = s.rb := rfl
@[simp] theorem State.returnFault_status (s : State) : (s.returnFault).status = s.status := rfl
@[simp] theorem State.returnFault_inValid (s : State) : (s.returnFault).inValid = s.inValid := rfl
@[simp] theorem State.returnFault_inData (s : State) : (s.returnFault).inData = s.inData := rfl
@[simp] theorem State.returnFault_faultCause (s : State) : (s.returnFault).faultCause = s.faultCause := rfl
@[simp] theorem State.returnFault_faultReason (s : State) : (s.returnFault).faultReason = s.faultReason := rfl
@[simp] theorem State.returnFault_host (s : State) : (s.returnFault).host = s.host := rfl
@[simp] theorem State.returnFault_result (s : State) : (s.returnFault).result = .fault s.faultCause s.faultReason := rfl

/-! ### `takeCommand` -/

@[simp] theorem State.takeCommand_mem (s : State) : (s.takeCommand).mem = s.mem := rfl
@[simp] theorem State.takeCommand_memWords (s : State) : (s.takeCommand).memWords = s.memWords := rfl
@[simp] theorem State.takeCommand_ip (s : State) : (s.takeCommand).ip = s.ip := rfl
@[simp] theorem State.takeCommand_rb (s : State) : (s.takeCommand).rb = s.rb := rfl
@[simp] theorem State.takeCommand_status (s : State) : (s.takeCommand).status = s.status := rfl
@[simp] theorem State.takeCommand_inValid (s : State) : (s.takeCommand).inValid = s.inValid := rfl
@[simp] theorem State.takeCommand_inData (s : State) : (s.takeCommand).inData = s.inData := rfl
@[simp] theorem State.takeCommand_faultCause (s : State) : (s.takeCommand).faultCause = s.faultCause := rfl
@[simp] theorem State.takeCommand_faultReason (s : State) : (s.takeCommand).faultReason = s.faultReason := rfl
@[simp] theorem State.takeCommand_host (s : State) : (s.takeCommand).host = s.host.tail := rfl
@[simp] theorem State.takeCommand_result (s : State) : (s.takeCommand).result = s.result := rfl

end Sys2Proof.Machine
end

