-- ==== Sys2Proof/Laws/Operands.lean ====
section
/-! SUPPORT. For each shared operation, everything it can answer, said once. -/

namespace Sys2Proof.Machine

/-- The range check answers the cell the address names, or one of its two faults. -/
theorem checkAddress_cases (s : State) (n o : AddressReason) (a : Int) :
    (a < 0 ∧ checkAddress s n o a = .error (.address n)) ∨
      ((s.memWords : Int) ≤ a ∧ 0 ≤ a ∧ checkAddress s n o a = .error (.address o)) ∨
      (0 ≤ a ∧ a < (s.memWords : Int) ∧ checkAddress s n o a = .ok a.toNat) := by
  unfold checkAddress
  split
  · exact .inl ⟨‹_›, rfl⟩
  · split
    · exact .inr (.inl ⟨‹_›, by omega, rfl⟩)
    · exact .inr (.inr ⟨by omega, by omega, rfl⟩)

/-- A literal fetch finds no cell, or answers the cell's value. -/
theorem literal_cases (s : State) (k : Nat) :
    (s.memWords ≤ s.ip + 1 + k ∧ literal s k = .error (.address .paramOutOfRange)) ∨
      (LiteralIs s k (s.mem.read (s.ip + 1 + k)) ∧ literal s k = .ok (s.mem.read (s.ip + 1 + k))) := by
  unfold literal
  split
  · exact .inl ⟨‹_›, rfl⟩
  · exact .inr ⟨⟨by omega, rfl⟩, rfl⟩

/-- An instruction fetch is past the end, or answers the word at IP. -/
theorem fetch_cases (s : State) :
    (s.memWords ≤ s.ip ∧ fetch s = .error (.address .fetchOutOfRange)) ∨
      (s.ip < s.memWords ∧ fetch s = .ok (s.mem.read s.ip)) := by
  unfold fetch
  split
  · exact .inl ⟨‹_›, rfl⟩
  · exact .inr ⟨by omega, rfl⟩

/-- The source resolver answers the operand's value, or a fault that reading it raises. -/
theorem src_cases (s : State) (k : Nat) (m : Mode) :
    (∃ v, src s k m = .ok v ∧ SourceIs s k m v) ∨ ∃ e, src s k m = .error e ∧ SourceRaises s k m e := by
  rcases literal_cases s k with ⟨h, hl⟩ | ⟨h, hl⟩
  · refine .inr ⟨_, ?_, .missing h⟩
    cases m <;> simp [src, hl, bind, Except.bind]
  · have cell : ∀ a, AddressOf s m (s.mem.read (s.ip + 1 + k)) a → src s k m = readSource s a →
        (∃ v, src s k m = .ok v ∧ SourceIs s k m v) ∨ ∃ e, src s k m = .error e ∧ SourceRaises s k m e := by
      intro a ha hs
      rcases checkAddress_cases s .srcNegative .srcOutOfRange a with ⟨h0, hc⟩ | ⟨h0, _, hc⟩ | ⟨h0, h1, hc⟩
      · exact .inr ⟨_, by rw [hs, readSource, hc]; rfl, .negative h ha h0⟩
      · exact .inr ⟨_, by rw [hs, readSource, hc]; rfl, .outOfRange h ha h0⟩
      · exact .inl ⟨_, by rw [hs, readSource, hc]; rfl, .cell h ha h0 h1⟩
    cases m with
    | immediate => exact .inl ⟨_, by simp [src, hl, bind, Except.bind, pure, Except.pure], .literal h⟩
    | position => exact cell _ (.position _) (by simp [src, hl, bind, Except.bind])
    | relative => exact cell _ (.relative _) (by simp [src, hl, bind, Except.bind, relativeAddress])

/-- The destination resolver answers the cell the parameter names, or a fault that resolving it raises. -/
theorem dst_cases (s : State) (k : Nat) {m : Mode} (hm : m ≠ .immediate) :
    (∃ d, dst s k m = .ok d ∧ DestIs s k m d) ∨ ∃ e, dst s k m = .error e ∧ DestRaises s k m e := by
  rcases literal_cases s k with ⟨h, hl⟩ | ⟨h, hl⟩
  · refine .inr ⟨_, ?_, .missing hm h⟩
    cases m <;> simp_all [dst, bind, Except.bind]
  · have cell : ∀ a, AddressOf s m (s.mem.read (s.ip + 1 + k)) a →
        dst s k m = checkAddress s .dstNegative .dstOutOfRange a →
        (∃ d, dst s k m = .ok d ∧ DestIs s k m d) ∨ ∃ e, dst s k m = .error e ∧ DestRaises s k m e := by
      intro a ha hs
      rcases checkAddress_cases s .dstNegative .dstOutOfRange a with ⟨h0, hc⟩ | ⟨h0, _, hc⟩ | ⟨h0, h1, hc⟩
      · exact .inr ⟨_, by rw [hs, hc], .negative h ha h0⟩
      · exact .inr ⟨_, by rw [hs, hc], .outOfRange h ha h0⟩
      · exact .inl ⟨_, by rw [hs, hc], .cell h ha h0 h1⟩
    cases m with
    | immediate => exact absurd rfl hm
    | position => exact cell _ (.position _) (by simp [dst, hl, bind, Except.bind])
    | relative => exact cell _ (.relative _) (by simp [dst, hl, bind, Except.bind, relativeAddress])

/-- A literal cell has one value. -/
theorem LiteralIs.unique {s : State} {k : Nat} {x y : Word} (hx : LiteralIs s k x) (hy : LiteralIs s k y) :
    x = y := hx.2.symm.trans hy.2

/-- A literal in a mode has at most one effective address. -/
theorem AddressOf.unique {s : State} {m : Mode} {lit : Word} {x y : Int} (hx : AddressOf s m lit x)
    (hy : AddressOf s m lit y) : x = y := by
  cases hx <;> cases hy <;> rfl

/-- A source parameter has at most one value. -/
theorem SourceIs.unique {s : State} {k : Nat} {m : Mode} {v w : Word} (hv : SourceIs s k m v)
    (hw : SourceIs s k m w) : v = w := by
  cases hv with
  | literal h =>
    cases hw with
    | literal h' => exact h.unique h'
    | cell _ ha => cases ha
  | cell h ha =>
    cases hw with
    | literal => cases ha
    | cell h' ha' =>
      obtain rfl := h.unique h'
      obtain rfl := ha.unique ha'
      rfl

/-- A destination parameter names at most one cell. -/
theorem DestIs.unique {s : State} {k : Nat} {m : Mode} {d c : Nat} (hd : DestIs s k m d)
    (hc : DestIs s k m c) : d = c := by
  cases hd with
  | cell h ha =>
    cases hc with
    | cell h' ha' =>
      obtain rfl := h.unique h'
      obtain rfl := ha.unique ha'
      rfl

/-- A source parameter with a value raises nothing. -/
theorem SourceIs.not_raises {s : State} {k : Nat} {m : Mode} {v : Word} {e : FaultReason}
    (hv : SourceIs s k m v) : ¬ SourceRaises s k m e := by
  intro he
  cases hv with
  | literal h =>
    cases he with
    | missing h' => exact absurd h.1 (by omega)
    | negative _ ha => cases ha
    | outOfRange _ ha => cases ha
  | cell h ha low high =>
    cases he with
    | missing h' => exact absurd h.1 (by omega)
    | negative h' ha' => obtain rfl := h.unique h'; obtain rfl := ha.unique ha'; omega
    | outOfRange h' ha' => obtain rfl := h.unique h'; obtain rfl := ha.unique ha'; omega

/-- A destination parameter that names a cell raises nothing. -/
theorem DestIs.not_raises {s : State} {k : Nat} {m : Mode} {d : Nat} {e : FaultReason}
    (hd : DestIs s k m d) : ¬ DestRaises s k m e := by
  intro he
  cases hd with
  | cell h ha low high =>
    cases he with
    | missing _ h' => exact absurd h.1 (by omega)
    | negative h' ha' => obtain rfl := h.unique h'; obtain rfl := ha.unique ha'; omega
    | outOfRange h' ha' => obtain rfl := h.unique h'; obtain rfl := ha.unique ha'; omega

/-- The end of a command answers the committed state, or fault entry on the state it began in. -/
theorem finish_next {s t : State} {r : Except FaultReason State} (h : finish s r = .next t) :
    r = .ok t ∨ ∃ e, r = .error e ∧ t = s.raise e := by
  unfold finish at h
  split at h
  · cases h; exact .inl rfl
  · cases h; exact .inr ⟨_, rfl, rfl⟩

/-- The two sources of an instruction: both values, or the first fault in parameter order. -/
theorem resolveF2_cases (s : State) (m0 m1 : Mode) :
    (∃ a b, resolveF2 s m0 m1 = .ok (a, b) ∧ SourcesAre s m0 m1 a b) ∨
      ∃ e, resolveF2 s m0 m1 = .error e ∧ SourcesRaise s m0 m1 e := by
  rcases src_cases s 0 m0 with ⟨a, ha, ha'⟩ | ⟨e, he, he'⟩
  · rcases src_cases s 1 m1 with ⟨b, hb, hb'⟩ | ⟨e, he, he'⟩
    · exact .inl ⟨a, b, by simp [resolveF2, ha, hb, bind, Except.bind, pure, Except.pure], ha', hb'⟩
    · exact .inr ⟨e, by simp [resolveF2, ha, he, bind, Except.bind], .second ha' he'⟩
  · exact .inr ⟨e, by simp [resolveF2, he, bind, Except.bind], .first he'⟩

/-- The operands of a format F3 instruction: all three, or the first fault in parameter order. -/
theorem resolveF3_cases (s : State) (m0 m1 : Mode) {m2 : Mode} (hm : m2 ≠ .immediate) :
    (∃ a b d, resolveF3 s m0 m1 m2 = .ok (a, b, d) ∧ OperandsAre s m0 m1 m2 a b d) ∨
      ∃ e, resolveF3 s m0 m1 m2 = .error e ∧ OperandsRaise s m0 m1 m2 e := by
  rcases resolveF2_cases s m0 m1 with ⟨a, b, h, h'⟩ | ⟨e, he, he'⟩
  · rcases dst_cases s 2 hm with ⟨d, hd, hd'⟩ | ⟨e, he, he'⟩
    · exact .inl ⟨a, b, d, by simp [resolveF3, h, hd, bind, Except.bind, pure, Except.pure], h', hd'⟩
    · exact .inr ⟨e, by simp [resolveF3, h, he, bind, Except.bind], .dest h' he'⟩
  · exact .inr ⟨e, by simp [resolveF3, he, bind, Except.bind], .sources he'⟩

/-- What a format F3 instruction can answer: the result written to the cell its destination names and IP
moved past its four cells, or a fault with no other effect. -/
theorem threeOperand_next {s t : State} {m0 m1 m2 : Mode} {alu : Word → Word → Except FaultReason Word}
    (h : threeOperand s m0 m1 m2 alu = .next t) :
    (∃ a b d r, resolveF3 s m0 m1 m2 = .ok (a, b, d) ∧ alu a b = .ok r ∧
        t = ((s.store d r).advance 4).answer .continues) ∨
      (∃ e, t = s.raise e ∧ (resolveF3 s m0 m1 m2 = .error e ∨
        ∃ a b d, resolveF3 s m0 m1 m2 = .ok (a, b, d) ∧ alu a b = .error e)) := by
  have hf := finish_next h
  cases hr : resolveF3 s m0 m1 m2 with
  | error e =>
    simp only [hr, bind, Except.bind, reduceCtorEq, Except.error.injEq, false_or] at hf
    obtain ⟨e', he, ht⟩ := hf
    exact .inr ⟨e', ht, .inl (by rw [he])⟩
  | ok p =>
    obtain ⟨a, b, d⟩ := p
    cases hx : alu a b with
    | error e =>
      simp only [hr, hx, bind, Except.bind, reduceCtorEq, Except.error.injEq, false_or] at hf
      obtain ⟨e', he, ht⟩ := hf
      exact .inr ⟨e', ht, .inr ⟨a, b, d, rfl, by rw [hx, he]⟩⟩
    | ok r =>
      simp only [hr, hx, bind, Except.bind, pure, Except.pure, Except.ok.injEq, reduceCtorEq, false_and,
        exists_false, or_false] at hf
      exact .inl ⟨a, b, d, r, rfl, hx, hf.symm⟩

/-- What a jump can answer: IP at the checked target where it is taken, IP moved past its three cells
where it is not, or a fault with no other effect. -/
theorem conditionalJump_next {s t : State} {m0 m1 : Mode} {taken : Word → Bool}
    (h : conditionalJump s m0 m1 taken = .next t) :
    (∃ a b, resolveF2 s m0 m1 = .ok (a, b) ∧
        ((taken a = true ∧ ∃ c, jumpTarget s b = .ok c ∧ t = (s.jumpTo c).answer .continues) ∨
          (taken a = false ∧ t = (s.advance 3).answer .continues))) ∨
      (∃ e, t = s.raise e ∧ (resolveF2 s m0 m1 = .error e ∨
        ∃ a b, resolveF2 s m0 m1 = .ok (a, b) ∧ taken a = true ∧ jumpTarget s b = .error e)) := by
  have hf := finish_next h
  cases hr : resolveF2 s m0 m1 with
  | error e =>
    simp only [hr, bind, Except.bind, reduceCtorEq, Except.error.injEq, false_or] at hf
    obtain ⟨e', he, ht⟩ := hf
    exact .inr ⟨e', ht, .inl (by rw [he])⟩
  | ok p =>
    obtain ⟨a, b⟩ := p
    cases hk : taken a with
    | false =>
      simp only [hr, hk, bind, Except.bind, pure, Except.pure, Bool.false_eq_true, if_false, Except.ok.injEq,
        reduceCtorEq, false_and, exists_false, or_false] at hf
      exact .inl ⟨a, b, rfl, .inr ⟨hk, hf.symm⟩⟩
    | true =>
      cases hx : jumpTarget s b with
      | error e =>
        simp only [hr, hk, hx, bind, Except.bind, if_true, reduceCtorEq, Except.error.injEq, false_or] at hf
        obtain ⟨e', he, ht⟩ := hf
        exact .inr ⟨e', ht, .inr ⟨a, b, rfl, hk, by rw [hx, he]⟩⟩
      | ok c =>
        simp only [hr, hk, hx, bind, Except.bind, pure, Except.pure, if_true, Except.ok.injEq, reduceCtorEq,
          false_and, exists_false, or_false] at hf
        exact .inl ⟨a, b, rfl, .inl ⟨hk, c, hx, hf.symm⟩⟩

end Sys2Proof.Machine
end

