-- ==== Sys2Proof/Laws/Effects.lean ====
section
/-! SUPPORT. Everything an instruction can do, said once: claims about all instructions are case analyses of
`Effect`, with no meaning unfolded. -/

namespace Sys2Proof.Machine

/-- The instruction is one of the two jumps. -/
def IsJump (i : Instr) : Prop := ∃ m0 m1, i = .jumpIfTrue m0 m1 ∨ i = .jumpIfFalse m0 m1

/-- A fault that an instruction's own stages raise: never the empty reason, StarvedInputError or a misuse. -/
inductive InstrFault : FaultReason → Prop where
  | address (r : AddressReason) : InstrFault (.address r)
  | overflow (r : OverflowReason) : InstrFault (.overflow r)
  | immediateDest : InstrFault (.decode .immediateDest)

/-- What executing instruction `i` in state `s` can lead to. -/
inductive Effect (s : State) : Instr → State → Prop where
  /-- a fault, with no other effect (R176) -/
  | fault {i : Instr} {e : FaultReason} (he : InstrFault e) : Effect s i (s.raise e)
  /-- Add, Mul, LessThan, Equals: a result is written -/
  | write {i : Instr} {m : Mode} {d : Nat} {r : Word} (hi : i.dest = some (2, m)) (hl : i.length = 4)
      (hd : dst s 2 m = .ok d) (hm : d < s.memWords) (room : s.ip + 4 ≤ s.memWords) :
      Effect s i (((s.store d r).advance 4).answer .continues)
  /-- Input with a value latched -/
  | take {m : Mode} {d : Nat} (hv : s.inValid = true) (hd : dst s 0 m = .ok d) (hm : d < s.memWords)
      (room : s.ip + 2 ≤ s.memWords) :
      Effect s (.input m) ((((s.store d s.inData).consumeInput).advance 2).answer .continues)
  /-- Input with no value latched -/
  | suspend {m : Mode} (hv : s.inValid = false) :
      Effect s (.input m) ((s.setStatus .needsInput).answer .needsInput)
  /-- Output -/
  | emit {m : Mode} {a : Word} (ha : SourceIs s 0 m a) (hs : src s 0 m = .ok a)
      (room : s.ip + 2 ≤ s.memWords) : Effect s (.output m) ((s.advance 2).answer (.output a))
  /-- a taken jump -/
  | jump {i : Instr} {b : Word} (h : TakenJump s i b) (low : 0 ≤ b.toInt) (high : b.toInt < (s.memWords : Int)) :
      Effect s i ((s.jumpTo b.toInt.toNat).answer .continues)
  /-- a jump that is not taken -/
  | pass {i : Instr} (hi : IsJump i) (hn : ∀ b, ¬ TakenJump s i b) (hl : i.length = 3)
      (room : s.ip + 3 ≤ s.memWords) : Effect s i ((s.advance 3).answer .continues)
  /-- AdjustBase -/
  | rebase {m : Mode} {a r : Word} (ha : SourceIs s 0 m a) (hs : src s 0 m = .ok a)
      (hr : r.toInt = s.rb.toInt + a.toInt) (room : s.ip + 2 ≤ s.memWords) :
      Effect s (.adjustBase m) (((s.setBase r).advance 2).answer .continues)
  /-- Halt -/
  | halt : Effect s .halt ((s.setStatus .halted).answer .halted)

theorem InstrFault.cause_ne_none {e : FaultReason} (h : InstrFault e) : e.cause ≠ .none := by
  cases h <;> simp [FaultReason.cause]

theorem InstrFault.ne_starved {e : FaultReason} (h : InstrFault e) : e ≠ .starved := by
  cases h <;> simp

theorem SourceRaises.instrFault {s : State} {k : Nat} {m : Mode} {e : FaultReason}
    (h : SourceRaises s k m e) : InstrFault e := by
  cases h <;> exact .address _

theorem DestRaises.instrFault {s : State} {k : Nat} {m : Mode} {e : FaultReason}
    (h : DestRaises s k m e) : InstrFault e := by
  cases h <;> exact .address _

theorem SourceIs.room {s : State} {k : Nat} {m : Mode} {v : Word} (h : SourceIs s k m v) :
    s.ip + 1 + k < s.memWords := by
  cases h with
  | literal h => exact h.1
  | cell h => exact h.1

theorem DestIs.room {s : State} {k : Nat} {m : Mode} {d : Nat} (h : DestIs s k m d) :
    s.ip + 1 + k < s.memWords := by
  cases h with
  | cell h => exact h.1

theorem DestIs.inside {s : State} {k : Nat} {m : Mode} {d : Nat} (h : DestIs s k m d) : d < s.memWords := by
  cases h with
  | cell _ _ low high => omega

/-- The source resolver's value is the operand's value. -/
theorem sourceIs_of_src {s : State} {k : Nat} {m : Mode} {v : Word} (h : src s k m = .ok v) :
    SourceIs s k m v := by
  rcases src_cases s k m with ⟨w, hw, hs⟩ | ⟨e, he, _⟩
  · rw [h] at hw
    cases hw
    exact hs
  · rw [h] at he
    cases he

/-- The source resolver's faults are faults of an instruction. -/
theorem instrFault_of_src {s : State} {k : Nat} {m : Mode} {e : FaultReason} (h : src s k m = .error e) :
    InstrFault e := by
  rcases src_cases s k m with ⟨w, hw, _⟩ | ⟨e', he, hr⟩
  · rw [h] at hw
    cases hw
  · rw [h] at he
    cases he
    exact hr.instrFault

/-- The destination resolver's answer is the cell the parameter names. -/
theorem destIs_of_dst {s : State} {k : Nat} {m : Mode} {d : Nat} (h : dst s k m = .ok d) :
    DestIs s k m d := by
  have hm : m ≠ .immediate := by
    rintro rfl
    cases h
  rcases dst_cases s k hm with ⟨w, hw, hs⟩ | ⟨e, he, _⟩
  · rw [h] at hw
    cases hw
    exact hs
  · rw [h] at he
    cases he

/-- The destination resolver's faults are faults of an instruction. -/
theorem instrFault_of_dst {s : State} {k : Nat} {m : Mode} {e : FaultReason} (h : dst s k m = .error e) :
    InstrFault e := by
  by_cases hm : m = .immediate
  · subst hm
    cases h
    exact .immediateDest
  · rcases dst_cases s k hm with ⟨w, hw, _⟩ | ⟨e', he, hr⟩
    · rw [h] at hw
      cases hw
    · rw [h] at he
      cases he
      exact hr.instrFault

/-- The resolver of format F2 answers the operands' values. -/
theorem sourcesAre_of_resolveF2 {s : State} {m0 m1 : Mode} {a b : Word}
    (h : resolveF2 s m0 m1 = .ok (a, b)) : SourcesAre s m0 m1 a b := by
  rcases resolveF2_cases s m0 m1 with ⟨a', b', hr, hs⟩ | ⟨e, he, _⟩
  · rw [h] at hr
    cases hr
    exact hs
  · rw [h] at he
    cases he

/-- The faults of format F2's resolver are faults of an instruction. -/
theorem instrFault_of_resolveF2 {s : State} {m0 m1 : Mode} {e : FaultReason}
    (h : resolveF2 s m0 m1 = .error e) : InstrFault e := by
  rcases resolveF2_cases s m0 m1 with ⟨a', b', hr, _⟩ | ⟨e', he, hr⟩
  · rw [h] at hr
    cases hr
  · rw [h] at he
    cases he
    cases hr with
    | first hr => exact hr.instrFault
    | second _ hr => exact hr.instrFault

/-- The resolver of format F3 answers with the destination resolver's cell. -/
theorem dst_of_resolveF3 {s : State} {m0 m1 m2 : Mode} {a b : Word} {d : Nat}
    (h : resolveF3 s m0 m1 m2 = .ok (a, b, d)) : dst s 2 m2 = .ok d := by
  unfold resolveF3 at h
  cases h2 : resolveF2 s m0 m1 with
  | error e => simp [h2, bind, Except.bind] at h
  | ok p =>
    obtain ⟨x, y⟩ := p
    cases hd : dst s 2 m2 with
    | error e => simp [h2, hd, bind, Except.bind] at h
    | ok c =>
      simp only [h2, hd, bind, Except.bind, pure, Except.pure, Except.ok.injEq, Prod.mk.injEq] at h
      rw [h.2.2]

/-- The faults of format F3's resolver are faults of an instruction. -/
theorem instrFault_of_resolveF3 {s : State} {m0 m1 m2 : Mode} {e : FaultReason}
    (h : resolveF3 s m0 m1 m2 = .error e) : InstrFault e := by
  unfold resolveF3 at h
  cases h2 : resolveF2 s m0 m1 with
  | error e' =>
    simp only [h2, bind, Except.bind, Except.error.injEq] at h
    exact h ▸ instrFault_of_resolveF2 h2
  | ok p =>
    obtain ⟨x, y⟩ := p
    cases hd : dst s 2 m2 with
    | error e' =>
      simp only [h2, hd, bind, Except.bind, Except.error.injEq] at h
      exact h ▸ instrFault_of_dst hd
    | ok c => simp [h2, hd, bind, Except.bind, pure, Except.pure] at h

/-- The overflow check raises nothing but its own overflow. -/
theorem instrFault_of_narrow {p : Config.OvfPolicy} {why : OverflowReason} {v : Int} {e : FaultReason}
    (h : narrow p why v = .error e) : InstrFault e := by
  rcases narrow_cases p why v with ⟨_, r, _, hr⟩ | ⟨_, _, hr⟩ | ⟨_, _, hr⟩ <;> rw [h] at hr <;> cases hr
  exact .overflow _

/-- At the policy the spec fixes, what the overflow check lets through is the exact result. -/
theorem toInt_of_narrow {why : OverflowReason} {v : Int} {r : Word}
    (h : narrow Config.ovfPolicy why v = .ok r) : r.toInt = v := by
  rcases narrow_cases Config.ovfPolicy why v with ⟨_, x, hx, hr⟩ | ⟨_, _, hr⟩ | ⟨_, hp, _⟩
  · rw [h] at hr
    cases hr
    exact hx
  · rw [h] at hr
    cases hr
  · cases hp

/-! ### What each arm of `exec` runs -/

theorem exec_add (a b d : Mode) (s : State) :
    exec (.add a b d) s = threeOperand s a b d (addResult Config.ovfPolicy) := rfl
theorem exec_mul (a b d : Mode) (s : State) :
    exec (.mul a b d) s = threeOperand s a b d (mulResult Config.ovfPolicy) := rfl
theorem exec_input (d : Mode) (s : State) : exec (.input d) s = execInput d s := rfl
theorem exec_output (a : Mode) (s : State) : exec (.output a) s = execOutput a s := rfl
theorem exec_jumpIfTrue (a b : Mode) (s : State) :
    exec (.jumpIfTrue a b) s = conditionalJump s a b fun v => !isZero v := rfl
theorem exec_jumpIfFalse (a b : Mode) (s : State) :
    exec (.jumpIfFalse a b) s = conditionalJump s a b isZero := rfl
theorem exec_lessThan (a b d : Mode) (s : State) :
    exec (.lessThan a b d) s =
      threeOperand s a b d fun x y => .ok (truth (decide (x.toInt < y.toInt))) := rfl
theorem exec_equals (a b d : Mode) (s : State) :
    exec (.equals a b d) s = threeOperand s a b d fun x y => .ok (truth (x == y)) := rfl
theorem exec_adjustBase (a : Mode) (s : State) : exec (.adjustBase a) s = execAdjustBase a s := rfl
theorem exec_halt (s : State) : exec .halt s = .next ((s.setStatus .halted).answer .halted) := rfl

theorem effect_threeOperand {i : Instr} {s t : State} {m0 m1 m2 : Mode}
    {alu : Word → Word → Except FaultReason Word} (hi : i.dest = some (2, m2)) (hl : i.length = 4)
    (halu : ∀ a b e, alu a b = .error e → InstrFault e) (h : threeOperand s m0 m1 m2 alu = .next t) :
    Effect s i t := by
  rcases threeOperand_next h with ⟨a, b, d, r, hr, _, rfl⟩ | ⟨e, rfl, hr | ⟨a, b, d, _, hx⟩⟩
  · have hd := destIs_of_dst (dst_of_resolveF3 hr)
    exact .write hi hl (dst_of_resolveF3 hr) hd.inside (by have := hd.room; omega)
  · exact .fault (instrFault_of_resolveF3 hr)
  · exact .fault (halu _ _ _ hx)

theorem effect_conditionalJump {i : Instr} {s t : State} {m0 m1 : Mode} {taken : Word → Bool}
    (hi : IsJump i) (hl : i.length = 3)
    (hy : ∀ a b, SourcesAre s m0 m1 a b → taken a = true → TakenJump s i b)
    (hn : ∀ a b c, SourcesAre s m0 m1 a b → taken a = false → ¬ TakenJump s i c)
    (h : conditionalJump s m0 m1 taken = .next t) : Effect s i t := by
  rcases conditionalJump_next h with
    ⟨a, b, hr, ⟨hk, c, hc, rfl⟩ | ⟨hk, rfl⟩⟩ | ⟨e, rfl, hr | ⟨a, b, _, _, hc⟩⟩
  · rcases checkAddress_cases s .jumpNegative .jumpOutOfRange b.toInt with
      ⟨_, hj⟩ | ⟨_, _, hj⟩ | ⟨h0, h1, hj⟩ <;> rw [jumpTarget, hj] at hc <;> cases hc
    exact .jump (hy a b (sourcesAre_of_resolveF2 hr) hk) h0 h1
  · have hs := sourcesAre_of_resolveF2 hr
    exact .pass hi (fun c => hn a b c hs hk) hl (by have := hs.second.room; omega)
  · exact .fault (instrFault_of_resolveF2 hr)
  · rcases checkAddress_cases s .jumpNegative .jumpOutOfRange b.toInt with
      ⟨_, hj⟩ | ⟨_, _, hj⟩ | ⟨_, _, hj⟩ <;> rw [jumpTarget, hj] at hc <;> cases hc <;> exact .fault (.address _)

/-- What Input can do. -/
theorem effect_input {s t : State} {m : Mode} (h : execInput m s = .next t) : Effect s (.input m) t := by
  unfold execInput at h
  split at h
  · rename_i hv
    have hf := finish_next h
    cases hd : dst s 0 m with
    | error e' =>
      simp only [hd, bind, Except.bind, reduceCtorEq, Except.error.injEq, false_or] at hf
      obtain ⟨e, he, rfl⟩ := hf
      exact .fault (he ▸ instrFault_of_dst hd)
    | ok c =>
      simp only [hd, bind, Except.bind, pure, Except.pure, Except.ok.injEq, reduceCtorEq, false_and,
        exists_false, or_false] at hf
      subst hf
      have hc := destIs_of_dst hd
      exact .take hv hd hc.inside (by have := hc.room; omega)
  · rename_i hv
    cases h
    exact .suspend (by simpa using hv)

/-- What Output can do. -/
theorem effect_output {s t : State} {m : Mode} (h : execOutput m s = .next t) : Effect s (.output m) t := by
  have hf := finish_next h
  cases hs : src s 0 m with
  | error e' =>
    simp only [hs, bind, Except.bind, reduceCtorEq, Except.error.injEq, false_or] at hf
    obtain ⟨e, he, rfl⟩ := hf
    exact .fault (he ▸ instrFault_of_src hs)
  | ok v =>
    simp only [hs, bind, Except.bind, pure, Except.pure, Except.ok.injEq, reduceCtorEq, false_and,
      exists_false, or_false] at hf
    subst hf
    have hv := sourceIs_of_src hs
    exact .emit hv hs (by have := hv.room; omega)

/-- What AdjustBase can do. -/
theorem effect_adjustBase {s t : State} {m : Mode} (h : execAdjustBase m s = .next t) :
    Effect s (.adjustBase m) t := by
  have hf := finish_next h
  cases hs : src s 0 m with
  | error e' =>
    simp only [hs, bind, Except.bind, reduceCtorEq, Except.error.injEq, false_or] at hf
    obtain ⟨e, he, rfl⟩ := hf
    exact .fault (he ▸ instrFault_of_src hs)
  | ok v =>
    cases hr : baseResult Config.ovfPolicy s.rb v with
    | error e' =>
      simp only [hs, hr, bind, Except.bind, reduceCtorEq, Except.error.injEq, false_or] at hf
      obtain ⟨e, he, rfl⟩ := hf
      exact .fault (he ▸ instrFault_of_narrow hr)
    | ok r =>
      simp only [hs, hr, bind, Except.bind, pure, Except.pure, Except.ok.injEq, reduceCtorEq, false_and,
        exists_false, or_false] at hf
      subst hf
      have hv := sourceIs_of_src hs
      exact .rebase hv hs (toInt_of_narrow hr) (by have := hv.room; omega)

/-- What JumpIfTrue can do. -/
theorem effect_jumpIfTrue {s t : State} {a b : Mode} (h : exec (.jumpIfTrue a b) s = .next t) :
    Effect s (.jumpIfTrue a b) t := by
  rw [exec_jumpIfTrue] at h
  refine effect_conditionalJump ⟨a, b, .inl rfl⟩ rfl (fun _ _ hs ht => .ifTrue hs ?_) ?_ h
  · simpa [isZero] using ht
  · intro x y c hs ht hj
    cases hj with
    | ifTrue hs' ha =>
      obtain rfl := hs.first.unique hs'.first
      exact ha (by simpa [isZero] using ht)

/-- What JumpIfFalse can do. -/
theorem effect_jumpIfFalse {s t : State} {a b : Mode} (h : exec (.jumpIfFalse a b) s = .next t) :
    Effect s (.jumpIfFalse a b) t := by
  rw [exec_jumpIfFalse] at h
  refine effect_conditionalJump ⟨a, b, .inr rfl⟩ rfl (fun _ _ hs ht => .ifFalse hs ?_) ?_ h
  · simpa [isZero] using ht
  · intro x y c hs ht hj
    cases hj with
    | ifFalse hs' ha =>
      obtain rfl := hs.first.unique hs'.first
      subst ha
      simp [isZero] at ht

/-- Everything an instruction can do. -/
theorem exec_effect {i : Instr} {s t : State} (h : exec i s = .next t) : Effect s i t := by
  cases i with
  | add a b d =>
    rw [exec_add] at h
    exact effect_threeOperand rfl rfl (fun _ _ _ hx => instrFault_of_narrow hx) h
  | mul a b d =>
    rw [exec_mul] at h
    exact effect_threeOperand rfl rfl (fun _ _ _ hx => instrFault_of_narrow hx) h
  | lessThan a b d =>
    rw [exec_lessThan] at h
    exact effect_threeOperand rfl rfl (fun _ _ _ hx => by cases hx) h
  | equals a b d =>
    rw [exec_equals] at h
    exact effect_threeOperand rfl rfl (fun _ _ _ hx => by cases hx) h
  | input d => exact effect_input h
  | output a => exact effect_output h
  | jumpIfTrue a b => exact effect_jumpIfTrue h
  | jumpIfFalse a b => exact effect_jumpIfFalse h
  | adjustBase a => exact effect_adjustBase h
  | halt =>
    cases h
    exact .halt

/-- The end of a command always answers a next state. -/
theorem finish_answers (s : State) (r : Except FaultReason State) : ∃ t, finish s r = .next t := by
  cases r with
  | ok t => exact ⟨t, rfl⟩
  | error e => exact ⟨_, rfl⟩

/-- Input answers a next state: the value taken, the suspension, or a fault. -/
theorem execInput_answers (m : Mode) (s : State) : ∃ t, execInput m s = .next t := by
  unfold execInput
  split
  · exact finish_answers _ _
  · exact ⟨_, rfl⟩

end Sys2Proof.Machine
end

