-- ==== Sys2Proof/Laws/Memory.lean ====
section
/-! SUPPORT. Memory: a read after a write, and that every memory operation keeps the canonical form. -/

namespace Sys2Proof.Machine

@[simp] theorem Memory.read_nil (a : Nat) : Memory.read [] a = 0 := rfl

theorem Memory.read_cons (b : Nat) (v : Word) (m : Memory) (a : Nat) :
    Memory.read ((b, v) :: m) a = if a = b then v else Memory.read m a := rfl

theorem Memory.wfFrom_cons (lo a : Nat) (v : Word) (m : Memory) :
    Memory.wfFrom lo ((a, v) :: m) = true ↔ lo ≤ a ∧ v ≠ 0 ∧ Memory.wfFrom (a + 1) m = true := by
  simp [Memory.wfFrom, and_assoc]

theorem Memory.wfFrom_mono {lo lo' : Nat} {m : Memory} (h : Memory.wfFrom lo' m = true) (hl : lo ≤ lo') :
    Memory.wfFrom lo m = true := by
  cases m with
  | nil => rfl
  | cons p m =>
    obtain ⟨a, v⟩ := p
    rw [Memory.wfFrom_cons] at h ⊢
    exact ⟨by omega, h.2⟩

/-- In a canonical memory every cell below the first listed index reads as 0. -/
theorem Memory.read_below {m : Memory} {lo a : Nat} (h : Memory.wfFrom lo m = true) (ha : a < lo) :
    m.read a = 0 := by
  induction m generalizing lo with
  | nil => rfl
  | cons p m ih =>
    obtain ⟨b, v⟩ := p
    rw [Memory.wfFrom_cons] at h
    rw [Memory.read_cons, if_neg (by omega)]
    exact ih h.2.2 (by omega)

/-- A write leaves every other cell alone (R46), in any memory. -/
theorem Memory.read_write_other (m : Memory) {a b : Nat} (v : Word) (h : b ≠ a) :
    (m.write a v).read b = m.read b := by
  induction m with
  | nil => simp only [Memory.write]; split <;> simp [Memory.read_cons, h]
  | cons p m ih =>
    obtain ⟨c, u⟩ := p
    simp only [Memory.write]
    split
    · split <;> simp [Memory.read_cons, h]
    · split
      · rename_i _ hac
        subst hac
        split <;> simp [Memory.read_cons, h]
      · simp [Memory.read_cons, ih]

/-- A cell reads as the value last written to it (R46, R52), in a canonical memory. -/
theorem Memory.read_write_self_from {m : Memory} {lo : Nat} (a : Nat) (v : Word)
    (hw : Memory.wfFrom lo m = true) : (m.write a v).read a = v := by
  induction m generalizing lo with
  | nil => simp only [Memory.write]; split <;> simp_all [Memory.read_cons]
  | cons p m ih =>
    obtain ⟨c, u⟩ := p
    have hw' := (Memory.wfFrom_cons lo c u m).1 hw
    simp only [Memory.write]
    split
    · split
      · rename_i hac hv
        rw [Memory.read_cons, if_neg (by omega), Memory.read_below hw'.2.2 (by omega), hv]
      · simp [Memory.read_cons]
    · split
      · rename_i _ hac
        subst hac
        split
        · rename_i hv
          rw [Memory.read_below hw'.2.2 (by omega), hv]
        · simp [Memory.read_cons]
      · rename_i _ hac
        rw [Memory.read_cons, if_neg hac]
        exact ih hw'.2.2

/-- A cell reads as the value last written to it (R46, R52), in a canonical memory. -/
theorem Memory.read_write_self {m : Memory} (a : Nat) (v : Word) (hw : m.wf = true) :
    (m.write a v).read a = v :=
  Memory.read_write_self_from a v hw

theorem Memory.wfFrom_write {m : Memory} {lo : Nat} (a : Nat) (v : Word) (hlo : lo ≤ a)
    (hw : Memory.wfFrom lo m = true) : Memory.wfFrom lo (m.write a v) = true := by
  induction m generalizing lo with
  | nil =>
    simp only [Memory.write]
    split
    · rfl
    · rename_i hv
      exact (Memory.wfFrom_cons _ _ _ _).2 ⟨hlo, hv, rfl⟩
  | cons p m ih =>
    obtain ⟨c, u⟩ := p
    have hw' := (Memory.wfFrom_cons lo c u m).1 hw
    simp only [Memory.write]
    split
    · split
      · exact hw
      · rename_i hac hv
        exact (Memory.wfFrom_cons _ _ _ _).2
          ⟨hlo, hv, (Memory.wfFrom_cons _ _ _ _).2 ⟨by omega, hw'.2⟩⟩
    · split
      · rename_i _ hac
        subst hac
        split
        · exact Memory.wfFrom_mono hw'.2.2 (by omega)
        · rename_i hv
          exact (Memory.wfFrom_cons _ _ _ _).2 ⟨hw'.1, hv, hw'.2.2⟩
      · rename_i hlt hac
        exact (Memory.wfFrom_cons _ _ _ _).2 ⟨hw'.1, hw'.2.1, ih (by omega) hw'.2.2⟩

/-- A write keeps the canonical form. -/
theorem Memory.wf_write {m : Memory} (a : Nat) (v : Word) (hw : m.wf = true) : (m.write a v).wf = true :=
  Memory.wfFrom_write a v (Nat.zero_le a) hw

/-- Placing a list of cells keeps the canonical form. -/
theorem Memory.wf_place {m : Memory} (a : Nat) (vs : List Word) (hw : m.wf = true) :
    (m.place a vs).wf = true := by
  induction vs generalizing m a with
  | nil => exact hw
  | cons v vs ih => exact ih (a + 1) (Memory.wf_write a v hw)

theorem Memory.wfFrom_image (vs : List Word) (i : Nat) : Memory.wfFrom i (Memory.image i vs) = true := by
  induction vs generalizing i with
  | nil => rfl
  | cons v vs ih =>
    simp only [Memory.image]
    split
    · exact Memory.wfFrom_mono (ih (i + 1)) (by omega)
    · rename_i hv
      exact (Memory.wfFrom_cons _ _ _ _).2 ⟨Nat.le_refl i, hv, ih (i + 1)⟩

/-- The memory a LOAD leaves is in canonical form. -/
theorem Memory.wf_image (vs : List Word) : (Memory.image 0 vs).wf = true :=
  Memory.wfFrom_image vs 0

/-- The memory that holds a program from cell `i` on holds 0 everywhere else (R32, R48). -/
theorem Memory.read_image (vs : List Word) (i a : Nat) :
    (Memory.image i vs).read a = if i ≤ a then vs.getD (a - i) 0 else 0 := by
  induction vs generalizing i with
  | nil => simp [Memory.image]
  | cons v vs ih =>
    have hs : i < a → (v :: vs).getD (a - i) 0 = vs.getD (a - (i + 1)) 0 := fun h => by
      rw [show a - i = (a - (i + 1)) + 1 by omega, List.getD_cons_succ]
    by_cases hia : a = i
    · subst hia
      simp only [Memory.image]
      split
      · rename_i hv
        simp [ih, hv]
      · simp [Memory.read_cons]
    · simp only [Memory.image]
      split
      · rw [ih]
        by_cases hlt : i < a
        · rw [if_pos (by omega), if_pos (by omega), hs hlt]
        · rw [if_neg (by omega), if_neg (by omega)]
      · rw [Memory.read_cons, if_neg hia, ih]
        by_cases hlt : i < a
        · rw [if_pos (by omega), if_pos (by omega), hs hlt]
        · rw [if_neg (by omega), if_neg (by omega)]

/-- The memory of the reset state is in canonical form. -/
theorem State.reset_wf : State.reset.mem.wf = true := rfl

end Sys2Proof.Machine
end

