-- ==== Sys2Proof/Laws/PerInstr.lean ====
section
/-! SUPPORT. A property of every instruction as syntax, one lemma per constructor. -/

namespace Sys2Proof.Laws.EncodedWord

/-- The instruction's word is not negative and selects its opcode (R62, R67), and the instruction has one
of the four lengths of R60. -/
def Statement (i : Instr) : Prop :=
  0 ≤ (encode i).toInt ∧ (encode i).toNat % 100 = i.opcode ∧ 1 ≤ i.length ∧ i.length ≤ 4

theorem add (a b dst : Mode) : Statement (.add a b dst) := by
  cases a <;> cases b <;> cases dst <;> exact ⟨by decide, by decide, by decide, by decide⟩

theorem mul (a b dst : Mode) : Statement (.mul a b dst) := by
  cases a <;> cases b <;> cases dst <;> exact ⟨by decide, by decide, by decide, by decide⟩

theorem input (dst : Mode) : Statement (.input dst) := by
  cases dst <;> exact ⟨by decide, by decide, by decide, by decide⟩

theorem output (a : Mode) : Statement (.output a) := by
  cases a <;> exact ⟨by decide, by decide, by decide, by decide⟩

theorem jumpIfTrue (a b : Mode) : Statement (.jumpIfTrue a b) := by
  cases a <;> cases b <;> exact ⟨by decide, by decide, by decide, by decide⟩

theorem jumpIfFalse (a b : Mode) : Statement (.jumpIfFalse a b) := by
  cases a <;> cases b <;> exact ⟨by decide, by decide, by decide, by decide⟩

theorem lessThan (a b dst : Mode) : Statement (.lessThan a b dst) := by
  cases a <;> cases b <;> cases dst <;> exact ⟨by decide, by decide, by decide, by decide⟩

theorem equals (a b dst : Mode) : Statement (.equals a b dst) := by
  cases a <;> cases b <;> cases dst <;> exact ⟨by decide, by decide, by decide, by decide⟩

theorem adjustBase (a : Mode) : Statement (.adjustBase a) := by
  cases a <;> exact ⟨by decide, by decide, by decide, by decide⟩

theorem halt : Statement .halt := ⟨by decide, by decide, by decide, by decide⟩

end Sys2Proof.Laws.EncodedWord
end

