-- ==== Sys2Proof/Laws/Steps.lean ====
section
/-! SUPPORT. What the stages of STEP before the instruction can do, said once; what taking a command from
the host's list leaves as it is; and how a run of several steps unfolds. -/

namespace Sys2Proof.Machine

/-- The decode stage raises decode errors alone. -/
theorem decodeStage_error {w : Word} {e : FaultReason} (h : decodeStage w = .error e) :
    ∃ r, e = .decode r ∧ decode w = .error r := by
  unfold decodeStage at h
  split at h <;> cases h
  exact ⟨_, rfl, by assumption⟩

/-- Fetch and decode raise FetchOutOfRange or a decode error. -/
theorem fetchDecode_error {s : State} {e : FaultReason} (h : fetchDecode s = .error e) :
    e = .address .fetchOutOfRange ∨ ∃ r, e = .decode r := by
  unfold fetchDecode at h
  rcases fetch_cases s with ⟨_, hf⟩ | ⟨_, hf⟩ <;> rw [hf] at h
  · cases h
    exact .inl rfl
  · obtain ⟨r, hr, _⟩ := decodeStage_error h
    exact .inr ⟨r, hr⟩

/-- The instruction at IP: IP is inside the array and its word decodes (R82, R83). -/
theorem fetchDecode_ok_iff {s : State} {i : Instr} :
    fetchDecode s = .ok i ↔ s.ip < s.memWords ∧ decode (s.mem.read s.ip) = .ok i := by
  unfold fetchDecode
  rcases fetch_cases s with ⟨h, hf⟩ | ⟨h, hf⟩ <;> rw [hf]
  · simp
    omega
  · simp only [h, decodeStage, true_and]
    split <;> simp_all

/-- Everything one `STEP` command can lead to. -/
inductive StepEffect (s : State) : State → Prop where
  /-- the recorded fault of a faulted session -/
  | again (h : s.status = .faulted) : StepEffect s s.returnFault
  /-- a misuse, raised by the status stage -/
  | misuse (r : MisuseReason) (h : s.status ≠ .faulted) (h' : s.status ≠ .running) :
      StepEffect s (s.raise (.misuse r))
  /-- a fault of the fetch or the decode stage -/
  | early (e : FaultReason) (h : s.status = .running) (he : e.cause ≠ .none) (hs : e ≠ .starved) :
      StepEffect s (s.raise e)
  /-- the instruction at IP -/
  | run (i : Instr) (t : State) (h : s.status = .running) (hf : fetchDecode s = .ok i)
      (hx : exec i s = .next t) : StepEffect s t

/-- Everything one `STEP` command can do. -/
theorem stepCommand_effect {s t : State} (h : stepCommand s = .next t) : StepEffect s t := by
  unfold stepCommand at h
  split at h
  · cases h
    exact .again ‹_›
  · cases h
    exact .misuse _ (by simp_all) (by simp_all)
  · cases h
    exact .misuse _ (by simp_all) (by simp_all)
  · split at h
    · exact .run _ _ ‹_› ‹_› h
    · cases h
      rename_i hs _ e he
      rcases fetchDecode_error he with rfl | ⟨r, rfl⟩
      · exact .early _ hs (by simp [FaultReason.cause]) (by simp)
      · exact .early _ hs (by simp [FaultReason.cause]) (by simp)

/-! ### Taking a command from the host's list -/

@[simp] theorem fetchDecode_takeCommand (s : State) : fetchDecode s.takeCommand = fetchDecode s := rfl
@[simp] theorem src_takeCommand (s : State) (k : Nat) (m : Mode) : src s.takeCommand k m = src s k m := rfl
@[simp] theorem dst_takeCommand (s : State) (k : Nat) (m : Mode) : dst s.takeCommand k m = dst s k m := rfl

/-- With no command listed, a step is a STEP. -/
theorem step_of_no_command {s : State} (h : s.host = []) : step s = stepCommand s := by
  cases s
  cases h
  rfl

/-- A STEP leaves the host's list alone. -/
theorem stepCommand_host {s t : State} (h : stepCommand s = .next t) : t.host = s.host := by
  cases stepCommand_effect h with
  | run i _ _ _ hx => cases exec_effect hx <;> rfl
  | again => rfl
  | misuse => rfl
  | early => rfl

/-! ### Runs of several steps -/

theorem core_run_zero (s : State) : Host.Core.run Sys2Proof.core 0 s = .next s := rfl

/-- A run goes on from the state its first step answers. -/
theorem core_run_succ {s t : State} (n : Nat) (h : step s = .next t) :
    Host.Core.run Sys2Proof.core (n + 1) s = Host.Core.run Sys2Proof.core n t := by
  have h' : Host.Core.step Sys2Proof.core s = .next t := h
  simp only [Host.Core.run, h']

/-! ### Host-side loops -/

/-- One round of the host that supplies listed inputs. -/
theorem drive_succ (strict : Bool) (n : Nat) (inputs : List Word) (s : State) :
    drive strict (n + 1) inputs s =
      match stepCommand s with
      | .fault _ => none
      | .refused _ => none
      | .next t =>
        match t.result with
        | .continues => drive strict n inputs t
        | .output v => (drive strict n inputs t).map fun r => { r with outputs := v :: r.outputs }
        | .needsInput =>
          match inputs with
          | v :: rest => drive strict n rest (supply v t)
          | [] =>
            some { outputs := []
                   answer := if strict then .fault .starvedInputError .starved else .needsInput
                   session := t }
        | other => some { outputs := [], answer := other, session := t } := rfl

end Sys2Proof.Machine
end

