-- ==== Sys2Proof/Tests/Slice0.lean ====
section
/-! SUPPORT. Small tests of the model, each expected value taken from the spec's vectors (95_test_vectors.md,
named T<n>.<row>) or from its tables; and for every statement that has hypotheses a witness that meets
them, one per clause, at the ends of the clause's range. -/

namespace Sys2Proof.Tests

open Sys2Proof Sys2Proof.Machine

/-- The session right after `LOAD(program, 0)`. -/
def session (program : List Int) : State := load program 0 State.reset

/-- The next state, if that is the outcome. -/
def after : Host.Outcome State Fault Refusal → Option State
  | .next t => some t
  | .fault _ => none
  | .refused _ => none

/-- What a test looks at: IP, one cell, and what the command returned. -/
def look (a : Nat) (o : Option State) : Option (Nat × Int × Response) :=
  o.map fun t => (t.ip, (t.mem.read a).toInt, t.result)

/-- IP, one cell and the result of the first STEP of a program. -/
def first (program : List Int) (a : Nat) : Option (Nat × Int × Response) :=
  look a (after (stepCommand (session program)))

/-- The cell value of an integer. -/
abbrev v (n : Int) : Word := BitVec.ofInt 64 n

/-! ### WellFormed -/

theorem test_wf_refuses_add : ¬ WellFormed (.add .position .position .immediate) := by decide
theorem test_wf_refuses_mul : ¬ WellFormed (.mul .immediate .relative .immediate) := by decide
theorem test_wf_refuses_input : ¬ WellFormed (.input .immediate) := by decide
theorem test_wf_refuses_lessThan : ¬ WellFormed (.lessThan .relative .relative .immediate) := by decide
theorem test_wf_refuses_equals : ¬ WellFormed (.equals .position .immediate .immediate) := by decide
theorem test_wf_accepts :
    WellFormed (.add .immediate .relative .relative) ∧ WellFormed (.output .immediate) ∧
      WellFormed (.jumpIfTrue .immediate .immediate) ∧ WellFormed (.jumpIfFalse .relative .immediate) ∧
      WellFormed (.adjustBase .immediate) ∧ WellFormed .halt := by decide

/-! ### Decoding: words of T1 and of the opcode table, digits written out by R62 -/

theorem test_decode_add : decode 1101 = .ok (.add .immediate .immediate .position) := by decide
theorem test_decode_mul : decode 21202 = .ok (.mul .relative .immediate .relative) := by decide
theorem test_decode_input : decode 203 = .ok (.input .relative) := by decide
theorem test_decode_output : decode 204 = .ok (.output .relative) := by decide
theorem test_decode_jumpIfTrue : decode 1105 = .ok (.jumpIfTrue .immediate .immediate) := by decide
theorem test_decode_jumpIfFalse : decode 2006 = .ok (.jumpIfFalse .position .relative) := by decide
theorem test_decode_lessThan : decode 22107 = .ok (.lessThan .immediate .relative .relative) := by decide
theorem test_decode_equals : decode 1208 = .ok (.equals .relative .immediate .position) := by decide
theorem test_decode_adjustBase : decode 209 = .ok (.adjustBase .relative) := by decide
theorem test_decode_halt : decode 99 = .ok .halt := by decide

/-- T1.19 to T1.26: digits with no parameter to them are ignored. -/
theorem test_decode_ignores :
    decode 20099 = .ok .halt ∧ decode 10005 = .ok (.jumpIfTrue .position .position) ∧
      decode 10003 = .ok (.input .position) ∧ decode 1104 = .ok (.output .immediate) ∧
      decode 123400002 = .ok (.mul .position .position .position) := by decide
/-- T1.27 to T1.32 and T1.48. -/
theorem test_decode_badOpcode :
    decode 0 = .error .badOpcode ∧ decode 10 = .error .badOpcode ∧ decode 98 = .error .badOpcode ∧
      decode 100 = .error .badOpcode ∧ decode 3000 = .error .badOpcode := by decide
/-- T1.33 to T1.36. -/
theorem test_decode_negativeWord :
    decode (v (-1)) = .error .negativeWord ∧ decode (v (-99)) = .error .negativeWord ∧
      decode (v (-9223372036854775808)) = .error .negativeWord := by decide
/-- T1.37 to T1.41, T1.49 and T1.50. -/
theorem test_decode_badMode :
    decode 399 = .error .badMode ∧ decode 30001 = .error .badMode ∧ decode 4004 = .error .badMode ∧
      decode 13001 = .error .badMode ∧ decode 9223372036854775807 = .error .badMode := by decide
/-- T1.42 to T1.47. -/
theorem test_decode_immediateDest :
    decode 10001 = .error .immediateDest ∧ decode 11002 = .error .immediateDest ∧
      decode 10007 = .error .immediateDest ∧ decode 12008 = .error .immediateDest ∧
      decode 1103 = .error .immediateDest := by decide
/-- The canonical words of the opcode table's first row with the last mode Relative. -/
theorem test_encode_words :
    [(Mode.position, Mode.position), (.immediate, .position), (.relative, .position), (.position, .immediate),
      (.relative, .relative)].map (fun m => (encode (.add m.1 m.2 .relative)).toNat) =
      [20001, 20101, 20201, 21001, 22201] := by decide
theorem test_decodeTableWord :
    decodeTableWord 64 21101 = some (.add .immediate .immediate .relative) ∧
      decodeTableWord 64 103 = none := by decide

/-! ### One step of each instruction -/

/-- T3.12 -/
theorem test_add : first [1101, 9223372036854775806, 1, 5, 99, 0] 5 =
    some (4, 9223372036854775807, .continues) := by decide
/-- T3.10 -/
theorem test_add_overflow : first [1101, -9223372036854775808, -1, 5, 99, 0] 5 =
    some (0, 0, .fault .overflowError (.overflow .addOverflow)) := by decide
/-- T4.22 -/
theorem test_mul : first [1102, 4294967296, -2147483648, 5, 99, 0] 5 =
    some (4, -9223372036854775808, .continues) := by decide
/-- T4.9 -/
theorem test_mul_overflow : first [1102, -9223372036854775808, -1, 5, 99, 0] 5 =
    some (0, 0, .fault .overflowError (.overflow .mulOverflow)) := by decide
/-- T10.15 -/
theorem test_input_suspends : first [3] 0 = some (0, 3, .needsInput) := by decide
/-- T8.11, its third command -/
theorem test_input_takes : look 1 (after (stepCommand ((session [3, 1, 99]).latchInput (v (-1))))) =
    some (2, -1, .continues) := by decide
/-- T8.8 -/
theorem test_output : first [104, -7, 99] 0 = some (2, 104, .output (v (-7))) := by decide
/-- T8.20 -/
theorem test_output_fault : first [4, 3, 99] 0 =
    some (0, 4, .fault .addressError (.address .srcOutOfRange)) := by decide
/-- T6.3 -/
theorem test_jumpIfTrue : first [1105, -1, 7, 99, 0, 0, 0, 99] 0 = some (7, 1105, .continues) := by decide
/-- T6.26 -/
theorem test_jumpIfTrue_fault : first [5, 4, 50, 99, 0] 0 =
    some (0, 5, .fault .addressError (.address .srcOutOfRange)) := by decide
/-- T6.22 -/
theorem test_jumpIfFalse : first [1106, 1, 50, 99] 0 = some (3, 1106, .continues) := by decide
/-- T6.18 -/
theorem test_jumpIfFalse_fault : first [1106, 0, -5, 99] 0 =
    some (0, 1106, .fault .addressError (.address .jumpNegative)) := by decide
/-- T5.9 -/
theorem test_lessThan : first [1107, -9223372036854775808, 9223372036854775807, 5, 99, 9] 5 =
    some (4, 1, .continues) := by decide
/-- T5.20 -/
theorem test_lessThan_self : first [7, 0, 1, 0, 99] 0 = some (4, 0, .continues) := by decide
/-- T5.15 -/
theorem test_equals : first [1108, 4294967296, 0, 5, 99, 9] 5 = some (4, 0, .continues) := by decide
/-- T5.21 -/
theorem test_equals_self : first [8, 0, 0, 0, 99] 0 = some (4, 1, .continues) := by decide
/-- T7.6, its second step: the operand is read with the old base -/
theorem test_adjustBase :
    (after (stepCommand (((session [109, 5, 209, 3, 99, 0, 0, 0, 42]).setBase 5).jumpTo 2))).map
      (fun t => (t.ip, t.rb.toInt)) = some (4, 47) := by decide
/-- T7.9, its second step -/
theorem test_adjustBase_overflow :
    (after (stepCommand (((session [109, 0, 109, -1, 99]).setBase (v (-9223372036854775808))).jumpTo 2))).map
      (fun t => (t.ip, t.rb.toInt, t.faultCause.code, t.faultReason.code)) =
      some (2, -9223372036854775808, 5, 3) := by decide
/-- T8.7, its first step -/
theorem test_halt : (after (stepCommand (session [99]))).map (fun t => (t.ip, t.status, t.result)) =
    some (0, .halted, .halted) := by decide
/-- T7.22, its second step: the effective address is exact, not wrapped to -2 -/
theorem test_relative_exact :
    look 0 (after (stepCommand (((session [0, 0, 2201, 9223372036854775807, 0, 0, 99]).setBase
      (v 9223372036854775807)).jumpTo 2))) =
      some (2, 0, .fault .addressError (.address .srcOutOfRange)) := by decide
/-- T10.9: operands before the result -/
theorem test_priority : first [1101, 9223372036854775807, 1, -1, 99] 0 =
    some (0, 1101, .fault .addressError (.address .dstNegative)) := by decide

/-! ### The commands and the step -/

/-- T12.1 -/
theorem test_load :
    (load [1, 0, 0, 0, 99] 3 State.reset).registers = ⟨.running, 0, 0, 8, false, .none, .none⟩ := by decide
/-- T12.4 and T12.5 -/
theorem test_load_refused :
    load [99] (-1) State.reset = State.reset.answer .loadRefused ∧
      load [9223372036854775808] 0 State.reset = State.reset.answer .loadRefused := by decide
/-- T12.1 -/
theorem test_peek :
    (peek 4 (load [1, 0, 0, 0, 99] 3 State.reset)).result = .value 99 ∧
      (peek 7 (load [1, 0, 0, 0, 99] 3 State.reset)).result = .value 0 ∧
      (peek 8 (load [1, 0, 0, 0, 99] 3 State.reset)).result = .noSuchCell ∧
      (peek (-1) (load [1, 0, 0, 0, 99] 3 State.reset)).result = .noSuchCell := by decide
/-- T8.3 -/
theorem test_supply_unasked :
    (supply 1 (session [3, 0, 4, 0, 99])).result = .fault .callerMisuseError (.misuse .supplyNotNeeded) := by
  decide
/-- T9.7: a memory of no cells -/
theorem test_fetch_outOfRange : first [] 0 =
    some (0, 0, .fault .addressError (.address .fetchOutOfRange)) := by decide
/-- The first step after reset runs an instruction placed where it fetches: `Add #7, #8, [19]`. -/
theorem test_step_withFetchWord :
    look 19 (after (step (State.reset.withFetchWord 256
      (1101 + 7 * 2 ^ 64 + 8 * 2 ^ 128 + 19 * 2 ^ 192)))) = some (4, 15, .continues) := by decide
/-- Writing 0 unlists a cell, so that equal memories are equal lists (R48). -/
theorem test_memory_canonical :
    Memory.write (Memory.write [] 7 5) 7 0 = [] ∧ Memory.write (Memory.write [] 7 5) 3 4 = [(3, 4), (7, 5)] ∧
      Memory.wf [(7, 5), (3, 4)] = false ∧ Memory.wf [(3, 0)] = false := by decide

/-! ### Witnesses: encoding -/

theorem witness_DecodeChecksInOrder_negative : (v (-1)).toInt < 0 := by decide
/-- `op` is legal, written out as in the statement. -/
abbrev legalOp (w : Word) : Prop := (1 ≤ w.toNat % 100 ∧ w.toNat % 100 ≤ 9) ∨ w.toNat % 100 = 99
/-- All three mode digits are modes, written out as in the statement. -/
abbrev modesFit (w : Word) : Prop :=
  w.toNat / 100 % 10 ≤ 2 ∧ w.toNat / 1000 % 10 ≤ 2 ∧ w.toNat / 10000 % 10 ≤ 2
/-- The destination is Immediate, written out as in the statement. -/
abbrev immediateDest (w : Word) : Prop :=
  ((w.toNat % 100 = 1 ∨ w.toNat % 100 = 2 ∨ w.toNat % 100 = 7 ∨ w.toNat % 100 = 8) ∧
    w.toNat / 10000 % 10 = 1) ∨ (w.toNat % 100 = 3 ∧ w.toNat / 100 % 10 = 1)
/-- The opcodes just outside the legal ones: 0, 10 and 98. -/
theorem witness_DecodeChecksInOrder_opcode :
    (0 ≤ (0#64).toInt ∧ ¬ legalOp 0) ∧ (0 ≤ (10#64).toInt ∧ ¬ legalOp 10) ∧
      (0 ≤ (98#64).toInt ∧ ¬ legalOp 98) := by decide
/-- Mode digit 3, the least that is no mode, in each of the three places. -/
theorem witness_DecodeChecksInOrder_mode :
    (0 ≤ (301#64).toInt ∧ legalOp 301 ∧ ¬ modesFit 301) ∧
      (0 ≤ (3001#64).toInt ∧ legalOp 3001 ∧ ¬ modesFit 3001) ∧
      (0 ≤ (30001#64).toInt ∧ legalOp 30001 ∧ ¬ modesFit 30001) := by decide
/-- Both kinds of Immediate destination. -/
theorem witness_DecodeChecksInOrder_dest :
    (0 ≤ (10001#64).toInt ∧ legalOp 10001 ∧ modesFit 10001 ∧ immediateDest 10001) ∧
      (0 ≤ (103#64).toInt ∧ legalOp 103 ∧ modesFit 103 ∧ immediateDest 103) := by decide
/-- The opcodes 99 and 8, the second with the greatest mode digits. -/
theorem witness_DecodeChecksInOrder_legal :
    (0 ≤ (99#64).toInt ∧ legalOp 99 ∧ modesFit 99 ∧ ¬ immediateDest 99) ∧
      (0 ≤ (22208#64).toInt ∧ legalOp 22208 ∧ modesFit 22208 ∧ ¬ immediateDest 22208) := by decide
theorem witness_CanonicalWordDecodesAndIsLeast :
    WellFormed (.mul .immediate .relative .relative) ∧
      decode 122102 = .ok (.mul .immediate .relative .relative) := by decide
theorem witness_HighDigitsAreIgnored :
    0 ≤ (1#64).toInt ∧ 0 ≤ (9223372036854700001#64).toInt ∧
      (1#64).toNat % 100000 = (9223372036854700001#64).toNat % 100000 := by decide
theorem witness_AbsentDigitsArePosition : 99 < 10 ^ (0 + 2) ∧ 9999 < 10 ^ (2 + 2) := by decide

/-! ### Witnesses: operands -/

/-- Five cells: the literals at 1, 2 and 3 are 4, -1 and 5, one inside the array, one below and one just
beyond it. -/
def five : State := session [1, 4, -1, 5, 99]

theorem witness_LiteralIsTheParameterCell :
    five.memWords ≤ five.ip + 1 + 4 ∧ five.ip + 1 + 3 < five.memWords := by decide
theorem literal_four : LiteralIs five 0 4 := ⟨by decide, by decide⟩
theorem literal_minus : LiteralIs five 1 (v (-1)) := ⟨by decide, by decide⟩
theorem literal_five : LiteralIs five 2 5 := ⟨by decide, by decide⟩
/-- The three address clauses of R85 and R86 at their ends: the last cell, -1 and MEM_WORDS. -/
theorem witness_SourceOperandFollowsItsMode :
    SourceIs five 0 .position 99 ∧ SourceIs five 0 .immediate 4 ∧
      SourceRaises five 1 .position (.address .srcNegative) ∧
      SourceRaises five 2 .relative (.address .srcOutOfRange) ∧
      SourceRaises five 4 .immediate (.address .paramOutOfRange) :=
  ⟨sourceIs_of_src rfl, .literal literal_four, .negative literal_minus (.position _) (by decide),
    .outOfRange literal_five (.relative _) (by decide), .missing (by decide)⟩
theorem witness_DestinationOperandFollowsItsMode :
    Mode.relative ≠ .immediate ∧ DestIs five 0 .position 4 ∧
      DestRaises five 1 .position (.address .dstNegative) ∧
      DestRaises five 2 .relative (.address .dstOutOfRange) ∧
      DestRaises five 4 .position (.address .paramOutOfRange) :=
  ⟨by decide, destIs_of_dst rfl, .negative literal_minus (.position _) (by decide),
    .outOfRange literal_five (.relative _) (by decide), .missing (by decide) (by decide)⟩
/-- Sums 0, 4, 5 and -1 in an array of five cells, and the two extreme sums of R87. -/
theorem witness_EffectiveAddressIsExact :
    (LiteralIs five 1 (v (-1)) ∧ (v (-1)).toInt + five.rb.toInt < 0) ∧
      (LiteralIs five 2 5 ∧ (five.memWords : Int) ≤ (5 : Word).toInt + five.rb.toInt) ∧
      (LiteralIs five 0 4 ∧ 0 ≤ (4 : Word).toInt + five.rb.toInt ∧
        (4 : Word).toInt + five.rb.toInt < (five.memWords : Int)) ∧
      (LiteralIs (five.setBase 1) 1 (v (-1)) ∧ 0 ≤ (v (-1)).toInt + (five.setBase 1).rb.toInt) ∧
      (v (-9223372036854775808)).toInt + (v (-9223372036854775808)).toInt = -2 ^ 64 ∧
      (v 9223372036854775807).toInt + (v 9223372036854775807).toInt = 2 ^ 64 - 2 :=
  ⟨⟨literal_minus, by decide⟩, ⟨literal_five, by decide⟩, ⟨literal_four, by decide, by decide⟩,
    ⟨⟨by decide, by decide⟩, by decide⟩, by decide, by decide⟩

/-! ### Witnesses: the instructions -/

/-- A program of one three-parameter instruction with two Immediate sources and the last of six cells as
its destination. -/
def binary (op a b d : Int) : State := session [1100 + op, a, b, d, 99, 0]

theorem operands_add_fits :
    OperandsAre (binary 1 9223372036854775806 1 5) .immediate .immediate .position (v 9223372036854775806) 1 5 :=
  ⟨⟨sourceIs_of_src rfl, sourceIs_of_src rfl⟩, destIs_of_dst rfl⟩
theorem operands_add_over :
    OperandsAre (binary 1 9223372036854775807 1 5) .immediate .immediate .position (v 9223372036854775807) 1 5 :=
  ⟨⟨sourceIs_of_src rfl, sourceIs_of_src rfl⟩, destIs_of_dst rfl⟩
theorem witness_AddWritesTheSum :
    Mode.position ≠ .immediate ∧
      OperandsRaise (binary 1 1 1 6) .immediate .immediate .position (.address .dstOutOfRange) ∧
      OperandsRaise (binary 1 1 1 6) .immediate .relative .position (.address .dstOutOfRange) ∧
      ¬ Representable ((v 9223372036854775807).toInt + (1 : Word).toInt) ∧
      Representable ((v 9223372036854775806).toInt + (1 : Word).toInt) := by
  refine ⟨by decide, ?_, ?_, by unfold Representable; decide, by unfold Representable; decide⟩
  · exact .dest ⟨sourceIs_of_src rfl, sourceIs_of_src rfl⟩
      (.outOfRange ⟨by decide, rfl⟩ (.position _) (by decide))
  · exact .dest ⟨sourceIs_of_src rfl, sourceIs_of_src rfl⟩
      (.outOfRange ⟨by decide, rfl⟩ (.position _) (by decide))
theorem witness_MulWritesTheProduct :
    OperandsRaise (session [2, -1, 0, 0, 99]) .position .position .position (.address .srcNegative) ∧
      OperandsAre (binary 2 4294967296 (-2147483648) 5) .immediate .immediate .position (v 4294967296)
        (v (-2147483648)) 5 ∧
      Representable ((v 4294967296).toInt * (v (-2147483648)).toInt) ∧
      OperandsAre (binary 2 4294967296 (-2147483649) 5) .immediate .immediate .position (v 4294967296)
        (v (-2147483649)) 5 ∧
      ¬ Representable ((v 4294967296).toInt * (v (-2147483649)).toInt) :=
  ⟨.sources (.first (.negative ⟨by decide, rfl⟩ (.position _) (by decide))),
    ⟨⟨sourceIs_of_src rfl, sourceIs_of_src rfl⟩, destIs_of_dst rfl⟩, by unfold Representable; decide,
    ⟨⟨sourceIs_of_src rfl, sourceIs_of_src rfl⟩, destIs_of_dst rfl⟩, by unfold Representable; decide⟩
theorem witness_InputSuspendsOrStoresTheLatch :
    Mode.relative ≠ .immediate ∧ (session [3]).inValid = false ∧
      (((session [3]).latchInput 7).inValid = true ∧
        DestRaises ((session [3]).latchInput 7) 0 .position (.address .paramOutOfRange)) ∧
      ((session [203, 1]).latchInput 7).inValid = true ∧ DestIs ((session [203, 1]).latchInput 7) 0 .relative 1 :=
  ⟨by decide, by decide, ⟨by decide, .missing (by decide) (by decide)⟩, by decide, destIs_of_dst rfl⟩
theorem witness_OutputEmitsItsOperand :
    SourceRaises (session [104]) 0 .immediate (.address .paramOutOfRange) ∧
      SourceIs (session [4, 1]) 0 .position 1 :=
  ⟨.missing (by decide), sourceIs_of_src rfl⟩
/-- The clauses of a jump at their ends: the condition 0, 1 and -1; the target -1, 0, the last cell and
MEM_WORDS; the second operand faulting. -/
theorem witness_Jumps :
    SourcesRaise (session [5, 4, 5, 99, 0]) .position .position (.address .srcOutOfRange) ∧
      SourcesAre (session [1105, 0, -1]) .immediate .immediate 0 (v (-1)) ∧
      SourcesAre (session [1105, 1, -1]) .immediate .immediate 1 (v (-1)) ∧
      SourcesAre (session [1105, -1, 3]) .immediate .immediate (v (-1)) 3 ∧
      SourcesAre (session [1105, 1, 2]) .immediate .immediate 1 2 ∧
      SourcesAre (session [1105, 1, 0]) .immediate .immediate 1 0 ∧
      SourcesAre (session [1106, 0, 3]) .immediate .immediate 0 3 ∧
      SourcesAre (session [1106, 0, 2]) .immediate .immediate 0 2 :=
  ⟨.second (sourceIs_of_src rfl) (.outOfRange ⟨by decide, rfl⟩ (.position _) (by decide)),
    ⟨sourceIs_of_src rfl, sourceIs_of_src rfl⟩, ⟨sourceIs_of_src rfl, sourceIs_of_src rfl⟩,
    ⟨sourceIs_of_src rfl, sourceIs_of_src rfl⟩, ⟨sourceIs_of_src rfl, sourceIs_of_src rfl⟩,
    ⟨sourceIs_of_src rfl, sourceIs_of_src rfl⟩, ⟨sourceIs_of_src rfl, sourceIs_of_src rfl⟩,
    ⟨sourceIs_of_src rfl, sourceIs_of_src rfl⟩⟩
/-- The numbers in the states of `witness_Jumps` fall under the clauses they are chosen for. -/
theorem witness_Jumps_ends :
    (v (-1)).toInt < 0 ∧ (v (-1)).toInt ≠ 0 ∧ (1 : Word).toInt ≠ 0 ∧ (0 : Word).toInt = 0 ∧
      ((session [1105, -1, 3]).memWords : Int) ≤ (3 : Word).toInt ∧
      ((session [1106, 0, 3]).memWords : Int) ≤ (3 : Word).toInt ∧
      (2 : Word).toInt < ((session [1105, 1, 2]).memWords : Int) ∧ 0 ≤ (0 : Word).toInt := by decide
theorem witness_Comparisons :
    OperandsRaise (binary 7 1 2 (-1)) .immediate .immediate .position (.address .dstNegative) ∧
      OperandsAre (binary 7 (-1) 0 5) .immediate .immediate .position (v (-1)) 0 5 ∧
      (v (-1)).toInt < (0 : Word).toInt ∧
      OperandsAre (binary 7 5 5 5) .immediate .immediate .position 5 5 5 ∧
      (5 : Word).toInt ≤ (5 : Word).toInt ∧ (5 : Word).toInt = (5 : Word).toInt ∧
      (v (-1)).toInt ≠ (0 : Word).toInt :=
  ⟨.dest ⟨sourceIs_of_src rfl, sourceIs_of_src rfl⟩ (.negative ⟨by decide, rfl⟩ (.position _) (by decide)),
    ⟨⟨sourceIs_of_src rfl, sourceIs_of_src rfl⟩, destIs_of_dst rfl⟩, by decide,
    ⟨⟨sourceIs_of_src rfl, sourceIs_of_src rfl⟩, destIs_of_dst rfl⟩, by decide, by decide, by decide⟩
theorem witness_AdjustBaseAddsToRelativeBase :
    SourceRaises (session [109]) 0 .immediate (.address .paramOutOfRange) ∧
      SourceIs ((session [109, 1]).setBase (v 9223372036854775807)) 0 .immediate 1 ∧
      ¬ Representable ((v 9223372036854775807).toInt + (1 : Word).toInt) ∧
      SourceIs ((session [109, 1]).setBase (v 9223372036854775806)) 0 .immediate 1 ∧
      Representable ((v 9223372036854775806).toInt + (1 : Word).toInt) :=
  ⟨.missing (by decide), sourceIs_of_src rfl, by unfold Representable; decide, sourceIs_of_src rfl,
    by unfold Representable; decide⟩
/-- The addresses PEEK tells apart, in a memory of one cell. -/
theorem witness_HaltStopsPermanently :
    (0 : Int) ≤ 0 ∧ (0 : Int) < ((session [99]).memWords : Int) := by decide

/-! ### Witnesses: frames and steps -/

/-- A state a STEP of the session leads to, and the state itself. -/
theorem witness_StoringInstructionsFrame :
    (Instr.add .immediate .immediate .position).dest = some (2, .position) ∧
      (after (exec (.add .immediate .immediate .position) (binary 1 2 3 5))).isSome = true ∧
      dst (binary 1 2 3 5) 2 .position ≠ .ok 4 := by decide
theorem witness_NonStoringInstructionsFrame :
    (Instr.adjustBase .immediate).dest = none ∧
      (after (exec (.adjustBase .immediate) (session [109, 5]))).isSome = true := by decide
theorem witness_FaultEntryChangesNothingElse :
    (session [0]).status ≠ .faulted ∧
      (after (command .step (session [0]))).map State.status = some .faulted := by decide
/-- RB moves in this step. -/
theorem witness_OnlyAdjustBaseMovesRelativeBase :
    (after (step (session [109, 5]))).map State.rb = some 5 ∧ (session [109, 5]).rb ≠ 5 := by decide
/-- Cell 5 changes in this step. -/
theorem witness_OnlyDestinationCellsChange :
    (after (step (binary 1 2 3 5))).map (fun t => t.mem.read 5) = some 5 ∧ (binary 1 2 3 5).mem.read 5 ≠ 5 := by
  decide
/-- IP moves in these steps: a jump, sequential advance, and a LOAD. -/
theorem witness_InstructionPointerMovesOnlyByRule :
    (after (step (session [1105, 1, 2]))).map State.ip = some 2 ∧
      (after (step (session [104, 1]))).map State.ip = some 2 ∧
      (after (step { (session [99]).jumpTo 1 with host := [.load [99] 0] })).map State.ip = some 0 := by decide
theorem witness_MemoryNeverGrows :
    (after (step { session [99] with host := [.load [99] 1] })).map State.memWords = some 2 ∧
      (session [99]).memWords ≠ 2 := by decide
theorem witness_StepRunsTheDecodedInstruction :
    (session [99]).status = .running ∧ (session [99]).ip < (session [99]).memWords ∧
      decode ((session [99]).mem.read (session [99]).ip) = .ok .halt ∧ (session [99]).host = [] := by decide
theorem witness_StepStagesInOrder :
    ((session [0]).raise (.decode .badOpcode)).status = .faulted ∧
      ((session [99]).setStatus .halted).status = .halted ∧
      ((session [3]).setStatus .needsInput).status = .needsInput ∧
      ((session []).status = .running ∧ (session []).memWords ≤ (session []).ip) ∧
      ((session [0]).status = .running ∧ (session [0]).ip < (session [0]).memWords ∧
        decode ((session [0]).mem.read (session [0]).ip) = .error .badOpcode) := by decide
/-- One instruction for each result an instruction can give. -/
theorem witness_ResultsTellWhatRan :
    (after (exec (.jumpIfTrue .immediate .immediate) (session [1105, 0, 0]))).map State.result =
        some .continues ∧
      (after (exec (.output .immediate) (session [104, 3]))).map State.result = some (.output 3) ∧
      (after (exec (.input .position) (session [3]))).map State.result = some .needsInput ∧
      (after (exec .halt (session [99]))).map State.result = some .halted ∧
      (after (exec (.output .position) (session [4]))).map State.result =
        some (.fault .addressError (.address .paramOutOfRange)) := by decide
/-- The Add of T11.2's kind, its destination the next instruction's word. -/
theorem witness_NextFetchSeesTheStore :
    (session [1101, 50, 49, 4, 0]).mem.wf = true ∧ (session [1101, 50, 49, 4, 0]).host = [] ∧
      (session [1101, 50, 49, 4, 0]).status = .running ∧
      Stores (session [1101, 50, 49, 4, 0]) (.add .immediate .immediate .position) 4 99 ∧
      4 = (session [1101, 50, 49, 4, 0]).ip + 4 ∧ decode 99 = .ok .halt :=
  ⟨by decide, by decide, by decide,
    .add ⟨⟨sourceIs_of_src rfl, sourceIs_of_src rfl⟩, destIs_of_dst rfl⟩ (by decide), by decide, by decide⟩
/-- A Mul that stores a word that decodes to none, and one that stores into the last parameter cell of the
next instruction, the last cell of memory. -/
theorem witness_NextFetchSeesTheStore_other :
    Stores (session [1102, 2, 5, 4, 0]) (.mul .immediate .immediate .position) 4 10 ∧
      decode 10 = .error .badOpcode ∧
      Stores (session [1102, 2, 5, 7, 1101, 0, 0, 0]) (.mul .immediate .immediate .position) 7 10 ∧
      7 = (session [1102, 2, 5, 7, 1101, 0, 0, 0]).ip + 4 + 1 + 2 :=
  ⟨.mul ⟨⟨sourceIs_of_src rfl, sourceIs_of_src rfl⟩, destIs_of_dst rfl⟩ (by decide), by decide,
    .mul ⟨⟨sourceIs_of_src rfl, sourceIs_of_src rfl⟩, destIs_of_dst rfl⟩ (by decide), by decide⟩
/-- The other storing instructions, each into the cell the next fetch reads: an Input, and the comparisons
with both results, at equal operands where their clauses meet. -/
theorem witness_NextFetchSeesTheStore_rest :
    Stores ((session [3, 2, 0]).latchInput 99) (.input .position) 2 99 ∧
      Stores (binary 7 (-1) 0 4) (.lessThan .immediate .immediate .position) 4 1 ∧
      Stores (binary 7 5 5 4) (.lessThan .immediate .immediate .position) 4 0 ∧
      Stores (binary 8 5 5 4) (.equals .immediate .immediate .position) 4 1 ∧
      Stores (binary 8 (-1) 0 4) (.equals .immediate .immediate .position) 4 0 :=
  ⟨.input (destIs_of_dst rfl) rfl,
    .less ⟨⟨sourceIs_of_src rfl, sourceIs_of_src rfl⟩, destIs_of_dst rfl⟩ (a := v (-1)) (b := 0) (by decide),
    .notLess ⟨⟨sourceIs_of_src rfl, sourceIs_of_src rfl⟩, destIs_of_dst rfl⟩ (a := 5) (b := 5) (by decide),
    .equal ⟨⟨sourceIs_of_src rfl, sourceIs_of_src rfl⟩, destIs_of_dst rfl⟩ (a := 5) (b := 5) (by decide),
    .notEqual ⟨⟨sourceIs_of_src rfl, sourceIs_of_src rfl⟩, destIs_of_dst rfl⟩ (a := v (-1)) (b := 0)
      (by decide)⟩
/-- T11.4: the Output that stood in cell 4 never runs. -/
theorem test_store_seen :
    (after (step (((session [1101, 0, 99, 4, 104, 7, 99]).store 4 99).jumpTo 4))).map State.result =
      some .halted := by decide
theorem witness_InputTakesStepSupplyStep :
    let s : State := { session [203, 1] with host := [.step, .supply (v (-1)), .step] }
    s.status = .running ∧ s.inValid = false ∧ fetchDecode s = .ok (.input .relative) ∧
      DestIs s 0 .relative 1 ∧ s.host = [.step, .supply (v (-1)), .step] :=
  ⟨rfl, rfl, rfl, destIs_of_dst rfl, rfl⟩
theorem witness_SupplyLatchesOnlyOnRequest :
    ((session [0]).raise (.decode .badOpcode)).status = .faulted ∧ (session [3]).status = .running ∧
      ((session [99]).setStatus .halted).status = .halted ∧
      ((session [3]).setStatus .needsInput).status = .needsInput := by decide
/-- PEEK's clauses at their ends, in a memory of one cell: 0, -1 and 1. -/
theorem witness_PeekAndInspectOnlyRead :
    ((0 : Int) ≤ 0 ∧ (0 : Int) < ((session [99]).memWords : Int)) ∧ (-1 : Int) < 0 ∧
      ((session [99]).memWords : Int) ≤ 1 := by decide
/-- An accepted LOAD at the ends of the value range, and the three ways to be refused, each by one. -/
theorem witness_LoadPutsTheResetValues :
    ((∀ x ∈ [-9223372036854775808, 9223372036854775807], Representable x) ∧ (0 : Int) ≤ 0 ∧
        (([-9223372036854775808, 9223372036854775807] : List Int).length : Int) + 0 ≤ (Config.memMax : Int)) ∧
      ¬ Representable 9223372036854775808 ∧ ¬ (0 : Int) ≤ -1 ∧
      ¬ (([0] : List Int).length : Int) + 2 ^ 63 ≤ (Config.memMax : Int) := by
  unfold Representable
  decide
theorem witness_FaultedIsAbsorbing :
    let s : State := { (session [0]).raise (.decode .badOpcode) with host := [.step, .supply 1, .load [] 0] }
    s.status = .faulted ∧ ∀ c ∈ s.host.take 2, c.isLoad = false := by decide
theorem witness_CoreNeverStarves : (after (step (session [3]))).isSome = true := by decide

/-! ### Witnesses: the session as a whole -/

theorem witness_OverflowFollowsThePolicy :
    Representable ((v 9223372036854775806).toInt + (1 : Word).toInt) ∧
      ¬ Representable ((v 9223372036854775807).toInt + (1 : Word).toInt) ∧
      ¬ Representable ((v (-9223372036854775808)).toInt * (v (-1)).toInt) := by
  unfold Representable
  decide
/-- The invariant holds of a session that waits at an Input, and it goes on. -/
theorem witness_StepKeepsTheInvariant :
    SessionInv ((session [3]).setStatus .needsInput) ∧
      (after (step ((session [3]).setStatus .needsInput))).isSome = true := by
  refine ⟨?_, by decide⟩
  exact {
    canonical := by decide
    memInside := fun a ha => by
      have h : 1 ≤ a := ha
      show Memory.read [(0, 3)] a = 0
      rw [Memory.read_cons, if_neg (by omega)]
      rfl
    sizeBound := by decide
    ipInside := by decide
    latchStatus := by decide
    noLatch := by decide
    atInput := fun _ => ⟨.position, rfl⟩
    atHalt := by decide
    faultIff := by decide
    faultPair := by decide
    notStarved := by decide }
theorem witness_ResetIsALoad : (session [99]).host = [] := by decide
/-- Both outcomes: after STEP the latch is still empty, after SUPPLY it is filled. -/
theorem witness_EmptyLatchIsNeverRead :
    (session [3]).inValid = false ∧ (after (step (session [3]))).map State.inValid = some false ∧
      (after (step { (session [3]).setStatus .needsInput with host := [.supply 1] })).map State.inValid =
        some true := by decide
theorem witness_SessionsDoNotInterfere :
    (0 : Nat) ≠ 1 ∧
      ((commandSession [session [99], session [104, 1]] 0 .step)[0]?).map State.status = some .halted := by decide
/-- One Continue and then Halted: the loop stops with bound 2 and gives nothing with bound 1. -/
theorem witness_RunStopsAtFirstOtherResult :
    (session [1101, 1, 1, 0, 99]).host = [] ∧
      (runUntilOutputOrHalt 2 (session [1101, 1, 1, 0, 99])).map State.result = some .halted ∧
      (driveUntilNeedsInput 2 (session [1101, 1, 1, 0, 3])).map State.result = some .needsInput ∧
      runUntilOutputOrHalt 1 (session [1101, 1, 1, 0, 99]) = none := by decide
theorem witness_StrictWrapperReportsStarvation :
    (session [3]).status = .running ∧ (session [3]).inValid = false ∧
      fetchDecode (session [3]) = .ok (.input .position) := ⟨by decide, by decide, rfl⟩

/-- A canonical memory, and writes into it of a 0 and of another value. -/
theorem witness_ReadAfterWrite :
    Memory.wf [(3, 4), (7, 5)] = true ∧ (Memory.write [(3, 4), (7, 5)] 7 0).read 7 = 0 ∧
      (Memory.write [(3, 4), (7, 5)] 7 0).read 3 = 4 ∧ (Memory.write [(3, 4), (7, 5)] 5 1).read 5 = 1 := by
  decide

end Sys2Proof.Tests
end

/-! The family of 00_scope.md: every step answers a next state (R10, R93), and `wrap64` is the one cell value
congruent to its argument (R6). -/

namespace Sys2Proof.Machine

/-! ### Every step answers -/

/-- Every instruction answers a next state: all but a suspended Input and Halt end in `finish`. -/
theorem exec_answers (i : Instr) (s : State) : ∃ t, exec i s = .next t := by
  cases i with
  | add a b d => exact finish_answers _ _
  | mul a b d => exact finish_answers _ _
  | input d => exact execInput_answers d s
  | output a => exact finish_answers _ _
  | jumpIfTrue a b => exact finish_answers _ _
  | jumpIfFalse a b => exact finish_answers _ _
  | lessThan a b d => exact finish_answers _ _
  | equals a b d => exact finish_answers _ _
  | adjustBase a => exact finish_answers _ _
  | halt => exact ⟨_, exec_halt s⟩

/-- `STEP` answers a next state: in each status, and at every outcome of fetch and decode (R81). -/
theorem stepCommand_answers (s : State) : ∃ t, stepCommand s = .next t := by
  unfold stepCommand
  cases s.status with
  | faulted => exact ⟨_, rfl⟩
  | halted => exact ⟨_, rfl⟩
  | needsInput => exact ⟨_, rfl⟩
  | running =>
    cases fetchDecode s with
    | ok i => exact exec_answers i s
    | error e => exact ⟨_, rfl⟩

/-- Every host command answers a next state (R150). -/
theorem command_answers (c : Command) (s : State) : ∃ t, command c s = .next t := by
  cases c with
  | step => exact stepCommand_answers s
  | load program extraPadding => exact ⟨_, rfl⟩
  | supply v => exact ⟨_, rfl⟩
  | peek a => exact ⟨_, rfl⟩
  | inspect => exact ⟨_, rfl⟩

/-- Settles O31: a step is one host command, and every command answers. -/
theorem everyStepAnswers : Obligations.EveryStepAnswers := fun s =>
  command_answers s.nextCommand s.takeCommand

/-! ### `wrap64` -/

/-- The integer in the cell `wrap64 v` is the balanced remainder of `v` modulo 2^64. -/
theorem toInt_wrap64_eq_bmod (v : Int) : (wrap64 v).toInt = v.bmod (2 ^ 64) :=
  BitVec.toInt_ofInt v

/-- A cell's integer wraps to the cell itself. -/
@[simp] theorem wrap64_toInt (r : Word) : wrap64 r.toInt = r :=
  BitVec.ofInt_toInt

/-- `wrap64` does not see multiples of 2^64. -/
theorem wrap64_add_mul (v k : Int) : wrap64 (v + k * 2 ^ 64) = wrap64 v := by
  apply BitVec.eq_of_toInt_eq
  rw [toInt_wrap64_eq_bmod, toInt_wrap64_eq_bmod]
  exact Int.add_mul_bmod_self_right v k (2 ^ 64)

/-- The integer in the cell `wrap64 v` differs from `v` by a multiple of 2^64. -/
theorem toInt_wrap64_congruent (v : Int) : ∃ k : Int, (wrap64 v).toInt = v + k * 2 ^ 64 := by
  refine ⟨-v.bdiv (2 ^ 64), ?_⟩
  rw [toInt_wrap64_eq_bmod, Int.bmod_eq_self_sub_bdiv_mul]
  push_cast
  ring

/-- Settles O40: a cell congruent to `v` wraps to what `v` wraps to, and a cell wraps to itself. -/
theorem wrapIsTheUniqueCongruentValue : Obligations.WrapIsTheUniqueCongruentValue := by
  intro v r
  constructor
  · rintro ⟨k, hk⟩
    calc r = wrap64 r.toInt := (wrap64_toInt r).symm
      _ = wrap64 (v + k * 2 ^ 64) := by rw [hk]
      _ = wrap64 v := wrap64_add_mul v k
  · rintro rfl
    exact toInt_wrap64_congruent v

end Sys2Proof.Machine

/-! The family of 10_state.md: the invariant of a session (R22, R34), what moves IP, RB and MEM_WORDS (R22, R23,
R29), the latch that is not read while it is empty (R27), and sessions that share nothing (R33). -/

namespace Sys2Proof.Machine

/-! ### States that agree in all that an operand depends on -/

/-- Two states agree in memory and its size, IP and RB: in all that the instruction at IP and the operands it
has depend on. -/
structure SameOperands (s t : State) : Prop where
  mem      : t.mem = s.mem
  memWords : t.memWords = s.memWords
  ip       : t.ip = s.ip
  rb       : t.rb = s.rb

theorem SameOperands.symm {s t : State} (h : SameOperands s t) : SameOperands t s :=
  ⟨h.mem.symm, h.memWords.symm, h.ip.symm, h.rb.symm⟩

theorem SameOperands.trans {s t u : State} (h : SameOperands s t) (h' : SameOperands t u) : SameOperands s u :=
  ⟨h'.mem.trans h.mem, h'.memWords.trans h.memWords, h'.ip.trans h.ip, h'.rb.trans h.rb⟩

theorem SameOperands.takeCommand (s : State) : SameOperands s s.takeCommand := ⟨rfl, rfl, rfl, rfl⟩
theorem SameOperands.answer (s : State) (r : Response) : SameOperands s (s.answer r) := ⟨rfl, rfl, rfl, rfl⟩
theorem SameOperands.raise (s : State) (e : FaultReason) : SameOperands s (s.raise e) := ⟨rfl, rfl, rfl, rfl⟩
theorem SameOperands.returnFault (s : State) : SameOperands s s.returnFault := ⟨rfl, rfl, rfl, rfl⟩

section
variable {s t : State}

theorem LiteralIs.transfer {k : Nat} {lit : Word} (h : SameOperands s t) (hl : LiteralIs s k lit) :
    LiteralIs t k lit := by
  rw [LiteralIs, h.ip, h.memWords, h.mem]
  exact hl

theorem AddressOf.transfer {m : Mode} {lit : Word} {a : Int} (h : SameOperands s t) (ha : AddressOf s m lit a) :
    AddressOf t m lit a := by
  cases ha with
  | position => exact .position lit
  | relative => exact h.rb ▸ .relative lit

theorem SourceIs.transfer {k : Nat} {m : Mode} {v : Word} (h : SameOperands s t) (hv : SourceIs s k m v) :
    SourceIs t k m v := by
  cases hv with
  | literal hl => exact .literal (hl.transfer h)
  | cell hl ha low high => exact h.mem ▸ .cell (hl.transfer h) (ha.transfer h) low (h.memWords ▸ high)

theorem SourcesAre.transfer {m0 m1 : Mode} {a b : Word} (h : SameOperands s t) (hs : SourcesAre s m0 m1 a b) :
    SourcesAre t m0 m1 a b :=
  ⟨hs.first.transfer h, hs.second.transfer h⟩

theorem TakenJump.transfer {i : Instr} {b : Word} (h : SameOperands s t) (hj : TakenJump s i b) :
    TakenJump t i b := by
  cases hj with
  | ifTrue hs ha => exact .ifTrue (hs.transfer h) ha
  | ifFalse hs ha => exact .ifFalse (hs.transfer h) ha

end

/-! ### What a command and a step can lead to -/

/-- A taken jump is a jump. -/
theorem TakenJump.isJump {s : State} {i : Instr} {b : Word} (h : TakenJump s i b) : IsJump i := by
  cases h with
  | ifTrue => exact ⟨_, _, .inl rfl⟩
  | ifFalse => exact ⟨_, _, .inr rfl⟩

/-- A jump has no destination parameter (R65). -/
theorem IsJump.dest_eq_none {i : Instr} (h : IsJump i) : i.dest = none := by
  obtain ⟨m0, m1, rfl | rfl⟩ := h <;> rfl

/-- A LOAD is accepted and replaces the whole session, or is refused and changes nothing (R151). -/
theorem load_cases (program : List Int) (padding : Int) (s : State) :
    (loadAccepted program padding = true ∧ load program padding s = loadedState program padding s.host) ∨
      load program padding s = s.answer .loadRefused := by
  unfold load
  split
  · exact .inl ⟨‹_›, rfl⟩
  · exact .inr rfl

/-- A SUPPLY returns the recorded fault, latches the value of a session that asked for it, or is a misuse
(R152). -/
theorem supply_cases (v : Word) (s : State) :
    (s.status = .faulted ∧ supply v s = s.returnFault) ∨
      (s.status = .needsInput ∧ supply v s = ((s.latchInput v).setStatus .running).answer .accepted) ∨
      supply v s = s.raise (.misuse .supplyNotNeeded) := by
  unfold supply
  cases s.status with
  | faulted => exact .inl ⟨rfl, rfl⟩
  | needsInput => exact .inr (.inl ⟨rfl, rfl⟩)
  | running => exact .inr (.inr rfl)
  | halted => exact .inr (.inr rfl)

/-- A PEEK changes nothing but the answer (R153). -/
theorem peek_eq_answer (a : Int) (s : State) : ∃ r, peek a s = s.answer r := by
  unfold peek
  split <;> exact ⟨_, rfl⟩

theorem SameOperands.supply (v : Word) (s : State) : SameOperands s (supply v s) := by
  rcases supply_cases v s with ⟨_, h⟩ | ⟨_, h⟩ | h <;> rw [h] <;> exact ⟨rfl, rfl, rfl, rfl⟩

theorem SameOperands.peek (a : Int) (s : State) : SameOperands s (peek a s) := by
  obtain ⟨r, h⟩ := peek_eq_answer a s
  exact h ▸ .answer s r

/-- A `STEP` runs the instruction at IP, or ends in an earlier stage and moves nothing. -/
theorem stepCommand_cases {s t : State} (h : stepCommand s = .next t) :
    (∃ i, fetchDecode s = .ok i ∧ Effect s i t) ∨ SameOperands s t := by
  cases stepCommand_effect h with
  | run i _ _ hf hx => exact .inl ⟨i, hf, exec_effect hx⟩
  | again => exact .inr (.returnFault s)
  | misuse => exact .inr (.raise s _)
  | early => exact .inr (.raise s _)

/-- What one step can lead to: a LOAD, the effect of the instruction at IP, or a state in which memory, its
size, IP and RB are as before. -/
theorem step_cases {s t : State} (h : step s = .next t) :
    (∃ program padding, s.nextCommand = .load program padding ∧ t = load program padding s.takeCommand) ∨
      (s.nextCommand = .step ∧ ∃ i, fetchDecode s = .ok i ∧ Effect s.takeCommand i t) ∨ SameOperands s t := by
  have h' : command s.nextCommand s.takeCommand = .next t := h
  have quiet : ∀ u, SameOperands s.takeCommand u → SameOperands s u := fun _ => (SameOperands.takeCommand s).trans
  generalize s.nextCommand = c at h' ⊢
  cases c with
  | load program padding =>
    cases h'
    exact .inl ⟨_, _, rfl, rfl⟩
  | step =>
    rcases stepCommand_cases h' with ⟨i, hf, he⟩ | hq
    · exact .inr (.inl ⟨rfl, i, hf, he⟩)
    · exact .inr (.inr (quiet _ hq))
  | supply v =>
    cases h'
    exact .inr (.inr (quiet _ (.supply v _)))
  | peek a =>
    cases h'
    exact .inr (.inr (quiet _ (.peek a _)))
  | inspect =>
    cases h'
    exact .inr (.inr (quiet _ (.answer _ _)))

/-! ### What moves MEM_WORDS, RB and IP -/

/-- No instruction changes MEM_WORDS (R29). -/
theorem Effect.memWords_eq {s t : State} {i : Instr} (h : Effect s i t) : t.memWords = s.memWords := by
  cases h <;> rfl

/-- An instruction leaves RB alone, or is an AdjustBase and adds its whole operand (R140). -/
theorem Effect.rb_cases {s t : State} {i : Instr} (h : Effect s i t) :
    t.rb = s.rb ∨ ∃ m a, i = .adjustBase m ∧ SourceIs s 0 m a ∧ t.rb.toInt = s.rb.toInt + a.toInt := by
  cases h with
  | rebase ha _ hr => exact .inr ⟨_, _, rfl, ha, hr⟩
  | fault => exact .inl rfl
  | write => exact .inl rfl
  | take => exact .inl rfl
  | suspend => exact .inl rfl
  | emit => exact .inl rfl
  | jump => exact .inl rfl
  | pass => exact .inl rfl
  | halt => exact .inl rfl

/-- IP moved on by the length of the instruction, which is no Halt and no taken jump (R90). -/
def Advances (s : State) (i : Instr) (ip : Nat) : Prop :=
  ip = s.ip + i.length ∧ i ≠ .halt ∧ ∀ b, ¬ TakenJump s i b

/-- An instruction with a destination parameter that moves IP by its length advances. -/
theorem advances_of_dest {s : State} {i : Instr} {p : Nat × Mode} (h : i.dest = some p) :
    Advances s i (s.ip + i.length) := by
  refine ⟨rfl, ?_, fun b hj => ?_⟩
  · rintro rfl
    cases h
  · rw [hj.isJump.dest_eq_none] at h
    cases h

/-- An instruction leaves IP alone, advances, or is a taken jump to a target inside the array (R90, R122). -/
theorem Effect.ip_cases {s t : State} {i : Instr} (h : Effect s i t) :
    t.ip = s.ip ∨ Advances s i t.ip ∨
      ∃ b, TakenJump s i b ∧ (t.ip : Int) = b.toInt ∧ t.ip < s.memWords := by
  cases h with
  | fault => exact .inl rfl
  | suspend => exact .inl rfl
  | halt => exact .inl rfl
  | write hi hl => exact .inr (.inl (hl ▸ advances_of_dest hi))
  | take => exact .inr (.inl (advances_of_dest rfl))
  | emit => exact .inr (.inl ⟨rfl, nofun, nofun⟩)
  | rebase => exact .inr (.inl ⟨rfl, nofun, nofun⟩)
  | pass hi hn hl =>
    refine .inr (.inl ⟨by rw [hl]; rfl, ?_, hn⟩)
    rintro rfl
    obtain ⟨_, _, h | h⟩ := hi <;> cases h
  | jump hj low high => exact .inr (.inr ⟨_, hj, Int.toNat_of_nonneg low, (Int.toNat_lt low).2 high⟩)

/-- Settles O28: neither an instruction nor a command other than LOAD changes MEM_WORDS. -/
theorem memoryNeverGrows : Obligations.MemoryNeverGrows := by
  intro s t h hne
  rcases step_cases h with ⟨program, padding, hc, _⟩ | ⟨_, i, _, he⟩ | hq
  · rw [hc]
    rfl
  · exact absurd he.memWords_eq hne
  · exact absurd hq.memWords hne

/-- Settles O25: of all effects only AdjustBase's moves RB. -/
theorem onlyAdjustBaseMovesRelativeBase : Obligations.OnlyAdjustBaseMovesRelativeBase := by
  intro s t h hne
  rcases step_cases h with ⟨program, padding, hc, _⟩ | ⟨hc, i, hf, he⟩ | hq
  · left
    rw [hc]
    rfl
  · rcases he.rb_cases with hrb | ⟨m, a, rfl, ha, hr⟩
    · exact absurd hrb hne
    · exact .inr ⟨hc, m, a, hf, ha.transfer (SameOperands.takeCommand s).symm, hr⟩
  · exact absurd hq.rb hne

/-- Settles O27: by what a LOAD and each effect of an instruction leave in IP. -/
theorem instructionPointerMovesOnlyByRule : Obligations.InstructionPointerMovesOnlyByRule := by
  intro s t h hne
  have same := SameOperands.takeCommand s
  rcases step_cases h with ⟨program, padding, hc, rfl⟩ | ⟨hc, i, hf, he⟩ | hq
  · rcases load_cases program padding s.takeCommand with ⟨_, hl⟩ | hl
    · exact .inl ⟨by rw [hc]; rfl, by rw [hl]; rfl⟩
    · exact absurd (by rw [hl]; rfl) hne
  · refine .inr ⟨hc, i, hf, ?_⟩
    rcases he.ip_cases with hip | ⟨hip, hh, hn⟩ | ⟨b, hj, hip, hin⟩
    · exact absurd hip hne
    · exact .inl ⟨hip, hh, fun b hj => hn b (hj.transfer same)⟩
    · exact .inr ⟨b, hj.transfer same.symm, hip, hin⟩
  · exact absurd hq.ip hne

/-! ### The invariant of a session -/

/-- Settles O43: the reset memory is empty, and every other clause is about constants. -/
theorem resetMeetsTheInvariant : Obligations.ResetMeetsTheInvariant where
  canonical := State.reset_wf
  memInside _ _ := Memory.read_nil _
  sizeBound := Nat.le_refl _
  ipInside := Nat.zero_le _
  latchStatus := nofun
  noLatch := nofun
  atInput := by rintro (h | h) <;> cases h
  atHalt := nofun
  faultIff := by decide
  faultPair := rfl
  notStarved := nofun

section
variable {s t : State}

/-- What the host has listed is no part of the invariant. -/
theorem SessionInv.takeCommand (h : SessionInv s) : SessionInv s.takeCommand := { h with }

/-- What a command returned is no part of the invariant. -/
theorem SessionInv.answer (h : SessionInv s) (r : Response) : SessionInv (s.answer r) := { h with }

/-- Fault entry with a reason the CORE raises keeps the invariant (R176). -/
theorem SessionInv.raise (h : SessionInv s) {e : FaultReason} (he : e.cause ≠ .none) (hs : e ≠ .starved) :
    SessionInv (s.raise e) where
  canonical := h.canonical
  memInside := h.memInside
  sizeBound := h.sizeBound
  ipInside := h.ipInside
  latchStatus _ := .inr rfl
  noLatch := nofun
  atInput
    | .inl hv => h.atInput (.inl hv)
  atHalt := nofun
  faultIff := iff_of_true he rfl
  faultPair := rfl
  notStarved := hs

/-- A session whose status is not Faulted has recorded no fault. -/
theorem SessionInv.no_fault (h : SessionInv s) (hs : s.status ≠ .faulted) : s.faultCause = .none :=
  not_not.1 (mt h.faultIff.1 hs)

/-- A running session at an instruction other than Input has no value latched (R34 (a)). -/
theorem SessionInv.latch_empty (h : SessionInv s) {i : Instr} (hf : fetchDecode s = .ok i)
    (hi : ∀ m, i ≠ .input m) : s.inValid = false := by
  by_contra hv
  obtain ⟨m, hm⟩ := h.atInput (.inl (by simpa using hv))
  rw [hf] at hm
  cases hm
  exact hi m rfl

/-- A change of STATUS that stays with the instruction at IP and records no fault keeps the invariant, if the
new status fits the latch and that instruction. -/
theorem SessionInv.setStatus (h : SessionInv s) {x : Status} (hs : s.status ≠ .faulted) (hx : x ≠ .faulted)
    (latch : s.inValid = true → x = .running) (input : x = .needsInput → ∃ m, fetchDecode s = .ok (.input m))
    (halt : x = .halted → fetchDecode s = .ok .halt) : SessionInv (s.setStatus x) where
  canonical := h.canonical
  memInside := h.memInside
  sizeBound := h.sizeBound
  ipInside := h.ipInside
  latchStatus hv := .inl (latch hv)
  noLatch hn := by
    by_contra hv
    have hr := latch (by simpa using hv)
    rw [State.setStatus_status, hr] at hn
    cases hn
  atInput
    | .inl hv => h.atInput (.inl hv)
    | .inr hn => input hn
  atHalt := halt
  faultIff := iff_of_false (not_not.2 (h.no_fault hs)) hx
  faultPair := h.faultPair
  notStarved := h.notStarved

/-- A value given to a session that waits for one keeps the invariant: it still stands at its Input (R152). -/
theorem SessionInv.latchInput (h : SessionInv s) (hs : s.status = .needsInput) (v : Word) :
    SessionInv ((s.latchInput v).setStatus .running) where
  canonical := h.canonical
  memInside := h.memInside
  sizeBound := h.sizeBound
  ipInside := h.ipInside
  latchStatus _ := .inl rfl
  noLatch := nofun
  atInput _ := h.atInput (.inr hs)
  atHalt := nofun
  faultIff := iff_of_false (not_not.2 (h.no_fault (by simp [hs]))) nofun
  faultPair := h.faultPair
  notStarved := h.notStarved

/-- A write inside the array keeps the memory clauses of the invariant. -/
theorem SessionInv.write_inside (h : SessionInv s) {d a : Nat} (v : Word) (hd : d < s.memWords)
    (ha : s.memWords ≤ a) : (s.mem.write d v).read a = 0 := by
  rw [Memory.read_write_other _ _ (by omega), h.memInside a ha]

/-- A running session with an empty latch keeps the invariant under any change of its memory, IP and RB that
keeps memory canonical and everything inside the array: nothing is claimed of the instruction at the new IP. -/
theorem SessionInv.moved (h : SessionInv s) (hs : s.status = .running) (canonical : t.mem.wf = true)
    (inside : ∀ a, s.memWords ≤ a → t.mem.read a = 0) (words : t.memWords = s.memWords)
    (ip : t.ip ≤ s.memWords) (status : t.status = s.status) (latch : t.inValid = false)
    (cause : t.faultCause = s.faultCause) (reason : t.faultReason = s.faultReason) : SessionInv t where
  canonical := canonical
  memInside := words ▸ inside
  sizeBound := words ▸ h.sizeBound
  ipInside := words ▸ ip
  latchStatus hv := by simp [latch] at hv
  noLatch _ := latch
  atInput hv := by simp [latch, status, hs] at hv
  atHalt hh := by simp [status, hs] at hh
  faultIff := by rw [cause, status]; exact h.faultIff
  faultPair := by rw [cause, reason]; exact h.faultPair
  notStarved := reason ▸ h.notStarved

/-- Executing the instruction at IP keeps the invariant. -/
theorem SessionInv.effect (h : SessionInv s) {i : Instr} (hs : s.status = .running)
    (hf : fetchDecode s = .ok i) (he : Effect s i t) : SessionInv t := by
  have hnf : s.status ≠ .faulted := by simp [hs]
  cases he with
  | fault he => exact h.raise he.cause_ne_none he.ne_starved
  | write hi hl _ hm room =>
    have hv : s.inValid = false := h.latch_empty hf (by rintro m rfl; cases hi)
    exact h.moved hs (Memory.wf_write _ _ h.canonical) (fun _ => h.write_inside _ hm) rfl room rfl hv rfl rfl
  | take _ _ hm room =>
    exact h.moved hs (Memory.wf_write _ _ h.canonical) (fun _ => h.write_inside _ hm) rfl room rfl rfl rfl rfl
  | suspend hv =>
    exact (h.setStatus (x := .needsInput) hnf nofun (by simp [hv]) (fun _ => ⟨_, hf⟩) nofun).answer _
  | emit _ _ room =>
    exact h.moved hs h.canonical h.memInside rfl room rfl (h.latch_empty hf nofun) rfl rfl
  | jump hj low high =>
    have hv : s.inValid = false := h.latch_empty hf (by rintro m rfl; cases hj)
    exact h.moved hs h.canonical h.memInside rfl (Int.toNat_le.2 high.le) rfl hv rfl rfl
  | pass hi _ _ room =>
    have hv : s.inValid = false := h.latch_empty hf (by rintro m rfl; cases hi.dest_eq_none)
    exact h.moved hs h.canonical h.memInside rfl room rfl hv rfl rfl
  | rebase _ _ _ room =>
    exact h.moved hs h.canonical h.memInside rfl room rfl (h.latch_empty hf nofun) rfl rfl
  | halt =>
    have hv : s.inValid = false := h.latch_empty hf nofun
    exact (h.setStatus (x := .halted) hnf nofun (by simp [hv]) nofun (fun _ => hf)).answer _

/-- A `STEP` keeps the invariant, whichever stage it ends in. -/
theorem SessionInv.stepCommand (h : SessionInv s) (hx : stepCommand s = .next t) : SessionInv t := by
  cases stepCommand_effect hx with
  | again => exact h.answer _
  | misuse => exact h.raise nofun nofun
  | early e _ he hs => exact h.raise he hs
  | run i _ hs hf hx => exact h.effect hs hf (exec_effect hx)

/-- The size an accepted LOAD gives is within MEM_MAX (R151). -/
theorem loadAccepted_size {program : List Int} {padding : Int} (h : loadAccepted program padding = true) :
    program.length + padding.toNat ≤ Config.memMax := by
  simp only [loadAccepted, Bool.and_eq_true, decide_eq_true_eq] at h
  omega

/-- The state after an accepted LOAD meets the invariant (R32). -/
theorem sessionInv_loadedState {program : List Int} {padding : Int} (h : loadAccepted program padding = true)
    (host : List Command) : SessionInv (loadedState program padding host) where
  canonical := Memory.wf_image _
  memInside a ha := by
    have hlen : program.length + padding.toNat ≤ a := ha
    show (Memory.image 0 (program.map wrap64)).read a = 0
    rw [Memory.read_image, if_pos (Nat.zero_le a), List.getD_eq_default _ _ (by rw [List.length_map]; omega)]
  sizeBound := loadAccepted_size h
  ipInside := Nat.zero_le _
  latchStatus := nofun
  noLatch := nofun
  atInput := by rintro (h | h) <;> cases h
  atHalt := nofun
  faultIff := iff_of_false (not_not.2 rfl) nofun
  faultPair := rfl
  notStarved := nofun

/-- A LOAD keeps the invariant, accepted or refused. -/
theorem SessionInv.load (h : SessionInv s) (program : List Int) (padding : Int) :
    SessionInv (load program padding s) := by
  rcases load_cases program padding s with ⟨ha, hl⟩ | hl <;> rw [hl]
  · exact sessionInv_loadedState ha s.host
  · exact h.answer _

/-- A SUPPLY keeps the invariant, in every status. -/
theorem SessionInv.supply (h : SessionInv s) (v : Word) : SessionInv (supply v s) := by
  rcases supply_cases v s with ⟨_, hv⟩ | ⟨hs, hv⟩ | hv <;> rw [hv]
  · exact h.answer _
  · exact (h.latchInput hs v).answer _
  · exact h.raise nofun nofun

/-- Each of the five commands keeps the invariant. -/
theorem SessionInv.command (h : SessionInv s) {c : Command} (hc : command c s = .next t) : SessionInv t := by
  cases c with
  | load program padding =>
    cases hc
    exact h.load program padding
  | step => exact h.stepCommand hc
  | supply v =>
    cases hc
    exact h.supply v
  | peek a =>
    cases hc
    obtain ⟨r, hr⟩ := peek_eq_answer a s
    exact hr ▸ h.answer r
  | inspect =>
    cases hc
    exact h.answer _

end

/-- Settles O42: a step is a command carried out with that command no longer listed, and both parts keep the
invariant. -/
theorem stepKeepsTheInvariant : Obligations.StepKeepsTheInvariant := fun _ _ h hs =>
  h.takeCommand.command hs

/-! ### An empty latch is not read -/

/-- The session with another value in IN_DATA. -/
def State.setInData (s : State) (v : Word) : State := { s with inData := v }

@[simp] theorem State.setInData_inValid (s : State) (v : Word) : (s.setInData v).inValid = s.inValid := rfl
@[simp] theorem State.setInData_status (s : State) (v : Word) : (s.setInData v).status = s.status := rfl

/-- The operands of a jump do not come from the latch. -/
theorem resolveF2_setInData (s : State) (v : Word) (m0 m1 : Mode) :
    resolveF2 (s.setInData v) m0 m1 = resolveF2 s m0 m1 := rfl

/-- The operands of a format F3 instruction do not come from the latch. -/
theorem resolveF3_setInData (s : State) (v : Word) (m0 m1 m2 : Mode) :
    resolveF3 (s.setInData v) m0 m1 m2 = resolveF3 s m0 m1 m2 := rfl

/-- The end of a command writes nothing to IN_DATA of its own. -/
theorem finish_setInData {s t : State} {r r' : Except FaultReason State} (v : Word)
    (hr : r' = r.map (State.setInData · v)) (h : finish s r = .next t) :
    finish (s.setInData v) r' = .next (t.setInData v) := by
  subst hr
  cases r <;> cases h <;> rfl

theorem threeOperand_setInData {s t : State} {m0 m1 m2 : Mode} {alu : Word → Word → Except FaultReason Word}
    (v : Word) (h : threeOperand s m0 m1 m2 alu = .next t) :
    threeOperand (s.setInData v) m0 m1 m2 alu = .next (t.setInData v) := by
  refine finish_setInData v ?_ h
  rw [resolveF3_setInData]
  cases resolveF3 s m0 m1 m2 with
  | error e => rfl
  | ok p =>
    obtain ⟨a, b, d⟩ := p
    show (alu a b >>= _) = Except.map _ (alu a b >>= _)
    cases alu a b <;> rfl

theorem conditionalJump_setInData {s t : State} {m0 m1 : Mode} {taken : Word → Bool} (v : Word)
    (h : conditionalJump s m0 m1 taken = .next t) :
    conditionalJump (s.setInData v) m0 m1 taken = .next (t.setInData v) := by
  refine finish_setInData v ?_ h
  rw [resolveF2_setInData]
  cases resolveF2 s m0 m1 with
  | error e => rfl
  | ok p =>
    obtain ⟨a, b⟩ := p
    show (if taken a = true then (jumpTarget s b >>= _) else _) =
      Except.map _ (if taken a = true then (jumpTarget s b >>= _) else _)
    cases taken a with
    | false => rfl
    | true => cases jumpTarget s b <;> rfl

theorem execInput_setInData {s t : State} {m : Mode} (v : Word) (hv : s.inValid = false)
    (h : execInput m s = .next t) : execInput m (s.setInData v) = .next (t.setInData v) := by
  simp only [execInput, hv, State.setInData_inValid, Bool.false_eq_true, if_false] at h ⊢
  cases h
  rfl

theorem execOutput_setInData {s t : State} {m : Mode} (v : Word) (h : execOutput m s = .next t) :
    execOutput m (s.setInData v) = .next (t.setInData v) := by
  refine finish_setInData v ?_ h
  show (src s 0 m >>= _) = Except.map _ (src s 0 m >>= _)
  cases src s 0 m <;> rfl

theorem execAdjustBase_setInData {s t : State} {m : Mode} (v : Word) (h : execAdjustBase m s = .next t) :
    execAdjustBase m (s.setInData v) = .next (t.setInData v) := by
  refine finish_setInData v ?_ h
  show (src s 0 m >>= _) = Except.map _ (src s 0 m >>= _)
  cases src s 0 m with
  | error e => rfl
  | ok a =>
    show (baseResult Config.ovfPolicy s.rb a >>= _) = Except.map _ (baseResult Config.ovfPolicy s.rb a >>= _)
    cases baseResult Config.ovfPolicy s.rb a <;> rfl

/-- With an empty latch every instruction does the same whatever IN_DATA holds: only Input reads it, and only
behind its test of IN_VALID. -/
theorem exec_setInData {s t : State} {i : Instr} (v : Word) (hv : s.inValid = false) (h : exec i s = .next t) :
    exec i (s.setInData v) = .next (t.setInData v) := by
  cases i with
  | add a b d => exact threeOperand_setInData v h
  | mul a b d => exact threeOperand_setInData v h
  | input d => exact execInput_setInData v hv h
  | output a => exact execOutput_setInData v h
  | jumpIfTrue a b =>
    rw [exec_jumpIfTrue] at h
    exact conditionalJump_setInData v h
  | jumpIfFalse a b =>
    rw [exec_jumpIfFalse] at h
    exact conditionalJump_setInData v h
  | lessThan a b d =>
    rw [exec_lessThan] at h
    exact threeOperand_setInData v h
  | equals a b d =>
    rw [exec_equals] at h
    exact threeOperand_setInData v h
  | adjustBase a => exact execAdjustBase_setInData v h
  | halt =>
    cases h
    rfl

theorem fetchDecode_setInData (s : State) (v : Word) : fetchDecode (s.setInData v) = fetchDecode s := rfl

theorem stepCommand_setInData {s t : State} (v : Word) (hv : s.inValid = false)
    (h : stepCommand s = .next t) : stepCommand (s.setInData v) = .next (t.setInData v) := by
  revert h
  simp only [stepCommand, State.setInData_status, fetchDecode_setInData]
  cases s.status with
  | running =>
    cases fetchDecode s with
    | ok i => exact exec_setInData v hv
    | error e => rintro ⟨⟩; rfl
  | needsInput => rintro ⟨⟩; rfl
  | halted => rintro ⟨⟩; rfl
  | faulted => rintro ⟨⟩; rfl

/-- No instruction latches a value. -/
theorem Effect.inValid_eq_false {s t : State} {i : Instr} (h : Effect s i t) (hv : s.inValid = false) :
    t.inValid = false := by
  cases h with
  | take => rfl
  | fault => exact hv
  | write => exact hv
  | suspend => exact hv
  | emit => exact hv
  | jump => exact hv
  | pass => exact hv
  | rebase => exact hv
  | halt => exact hv

/-- A `STEP` latches no value. -/
theorem stepCommand_inValid_eq_false {s t : State} (h : stepCommand s = .next t) (hv : s.inValid = false) :
    t.inValid = false := by
  cases stepCommand_effect h with
  | run _ _ _ _ hx => exact (exec_effect hx).inValid_eq_false hv
  | again => exact hv
  | misuse => exact hv
  | early => exact hv

/-- A LOAD sets IN_DATA, or leaves the session as it is. -/
theorem load_setInData (program : List Int) (padding : Int) (s : State) (v : Word) :
    load program padding (s.setInData v) = load program padding s ∨
      ((load program padding s).inValid = s.inValid ∧
        load program padding (s.setInData v) = (load program padding s).setInData v) := by
  unfold load
  split
  · exact .inl rfl
  · exact .inr ⟨rfl, rfl⟩

/-- A SUPPLY sets IN_DATA where it latches its value, and leaves the latch as it is in every other case. -/
theorem supply_setInData (x : Word) (s : State) (v : Word) :
    supply x (s.setInData v) = supply x s ∨
      ((supply x s).inValid = s.inValid ∧ supply x (s.setInData v) = (supply x s).setInData v) := by
  unfold supply
  rw [State.setInData_status]
  cases s.status with
  | needsInput => exact .inl rfl
  | running => exact .inr ⟨rfl, rfl⟩
  | halted => exact .inr ⟨rfl, rfl⟩
  | faulted => exact .inr ⟨rfl, rfl⟩

theorem peek_setInData (a : Int) (s : State) (v : Word) :
    peek a (s.setInData v) = (peek a s).setInData v := by
  show (if 0 ≤ a ∧ a < (s.memWords : Int) then _ else _) = _
  unfold peek
  split <;> rfl

/-- A command to a session with an empty latch leads to the same state whatever IN_DATA holds, except that
this value may still stand in IN_DATA, behind a latch that is still empty. -/
theorem command_setInData {c : Command} {s t : State} (v : Word) (hv : s.inValid = false)
    (h : command c s = .next t) :
    command c (s.setInData v) = .next t ∨
      (t.inValid = false ∧ command c (s.setInData v) = .next (t.setInData v)) := by
  cases c with
  | load program padding =>
    cases h
    rcases load_setInData program padding s v with hl | ⟨hl, hl'⟩
    · exact .inl (congrArg Host.Outcome.next hl)
    · exact .inr ⟨hl.trans hv, congrArg Host.Outcome.next hl'⟩
  | step => exact .inr ⟨stepCommand_inValid_eq_false h hv, stepCommand_setInData v hv h⟩
  | supply x =>
    cases h
    rcases supply_setInData x s v with hl | ⟨hl, hl'⟩
    · exact .inl (congrArg Host.Outcome.next hl)
    · exact .inr ⟨hl.trans hv, congrArg Host.Outcome.next hl'⟩
  | peek a =>
    cases h
    obtain ⟨r, hr⟩ := peek_eq_answer a s
    exact .inr ⟨by rw [hr]; exact hv, congrArg Host.Outcome.next (peek_setInData a s v)⟩
  | inspect =>
    cases h
    exact .inr ⟨hv, rfl⟩

/-- Settles O45: by what the host's next command does with IN_DATA. -/
theorem emptyLatchIsNeverRead : Obligations.EmptyLatchIsNeverRead := by
  intro s t v hv h
  have h' : command s.nextCommand s.takeCommand = .next t := h
  rcases command_setInData (s := s.takeCommand) v hv h' with hu | ⟨ht, hu⟩
  · exact ⟨t, hu, .inl rfl, fun _ => rfl⟩
  · exact ⟨t.setInData v, hu, .inr rfl, fun hv' => by simp [ht] at hv'⟩

/-! ### Sessions side by side -/

/-- A command to a session that does not exist changes nothing. -/
theorem commandSession_of_none {sessions : List State} {i : Nat} (c : Command) (h : sessions[i]? = none) :
    commandSession sessions i c = sessions := by
  simp only [commandSession, h]

/-- A command to a session replaces it by the state the command answers. -/
theorem commandSession_of_some {sessions : List State} {i : Nat} {c : Command} {s t : State}
    (h : sessions[i]? = some s) (hc : command c s = .next t) :
    commandSession sessions i c = sessions.set i t := by
  simp only [commandSession, h, hc]

/-- A command to one session leaves every other as it is. -/
theorem getElem?_commandSession_ne (sessions : List State) {i j : Nat} (c : Command) (h : i ≠ j) :
    (commandSession sessions i c)[j]? = sessions[j]? := by
  cases hi : sessions[i]? with
  | none => rw [commandSession_of_none c hi]
  | some s =>
    obtain ⟨t, hc⟩ := command_answers c s
    rw [commandSession_of_some hi hc, List.getElem?_set_ne h]

/-- Commands to two sessions give the same in either order: each finds the session it would find alone. -/
theorem commandSession_comm (sessions : List State) {i j : Nat} (c d : Command) (h : i ≠ j) :
    commandSession (commandSession sessions i c) j d = commandSession (commandSession sessions j d) i c := by
  have hji := getElem?_commandSession_ne sessions d h.symm
  have hij := getElem?_commandSession_ne sessions c h
  cases hi : sessions[i]? with
  | none => rw [commandSession_of_none c hi, commandSession_of_none c (hji.trans hi)]
  | some s =>
    cases hj : sessions[j]? with
    | none => rw [commandSession_of_none d hj, commandSession_of_none d (hij.trans hj)]
    | some u =>
      obtain ⟨t, hc⟩ := command_answers c s
      obtain ⟨w, hd⟩ := command_answers d u
      rw [commandSession_of_some (hji.trans hi) hc, commandSession_of_some (hij.trans hj) hd,
        commandSession_of_some hi hc, commandSession_of_some hj hd, List.set_comm t w h]

/-- Settles O46: a command reads and replaces its own session only. -/
theorem sessionsDoNotInterfere : Obligations.SessionsDoNotInterfere := fun sessions _ _ c d h =>
  ⟨getElem?_commandSession_ne sessions c h, commandSession_comm sessions c d h⟩

end Sys2Proof.Machine

/-! The family of 20_memory.md: a read after a write (R46, R52), the one cell an instruction may change (R46, R58),
what every instruction leaves as it was (R89), and a store that the next fetch sees (R55). -/

namespace Sys2Proof.Machine

/-- Settles O49: the cell written and every other cell, each by its own law. -/
theorem readAfterWrite : Obligations.ReadAfterWrite := by
  intro m a b v hw
  split
  · subst b
    exact Memory.read_write_self a v hw
  · exact Memory.read_write_other m v ‹_›

/-! ### What an instruction leaves as it was -/

section
variable {s t : State} {i : Instr}

/-- An instruction leaves memory alone, or writes the one cell its destination resolver answers (R46). -/
theorem Effect.mem_cases (h : Effect s i t) :
    t.mem = s.mem ∨
      ∃ k m d r, i.dest = some (k, m) ∧ dst s k m = .ok d ∧ t.mem = s.mem.write d r := by
  cases h with
  | write hi _ hd => exact .inr ⟨_, _, _, _, hi, hd, rfl⟩
  | take _ hd => exact .inr ⟨_, _, _, _, rfl, hd, rfl⟩
  | fault => exact .inl rfl
  | suspend => exact .inl rfl
  | emit => exact .inl rfl
  | jump => exact .inl rfl
  | pass => exact .inl rfl
  | rebase => exact .inl rfl
  | halt => exact .inl rfl

/-- A cell an instruction changes is the one its destination resolver answers. -/
theorem Effect.dst_of_changed (h : Effect s i t) {a : Nat} (ha : t.mem.read a ≠ s.mem.read a) :
    ∃ k m, i.dest = some (k, m) ∧ dst s k m = .ok a := by
  rcases h.mem_cases with hm | ⟨k, m, d, r, hi, hd, hm⟩ <;> rw [hm] at ha
  · exact absurd rfl ha
  · have had : a = d := by
      by_contra hne
      exact ha (Memory.read_write_other _ _ hne)
    exact ⟨k, m, hi, had ▸ hd⟩

/-- No instruction writes IN_DATA. -/
theorem Effect.inData_eq (h : Effect s i t) : t.inData = s.inData := by
  cases h <;> rfl

/-- No instruction touches the host's list. -/
theorem Effect.host_eq (h : Effect s i t) : t.host = s.host := by
  cases h <;> rfl

/-- An instruction leaves IN_VALID alone, or is an Input that empties the latch. -/
theorem Effect.inValid_cases (h : Effect s i t) :
    t.inValid = s.inValid ∨ ∃ m, i = .input m ∧ t.inValid = false := by
  cases h with
  | take => exact .inr ⟨_, rfl, rfl⟩
  | fault => exact .inl rfl
  | write => exact .inl rfl
  | suspend => exact .inl rfl
  | emit => exact .inl rfl
  | jump => exact .inl rfl
  | pass => exact .inl rfl
  | rebase => exact .inl rfl
  | halt => exact .inl rfl

/-- STATUS and the two fault registers are in `t` what they are in `s`. -/
def SameControl (s t : State) : Prop :=
  t.status = s.status ∧ t.faultCause = s.faultCause ∧ t.faultReason = s.faultReason

/-- An instruction leaves STATUS and the fault registers alone, or enters a fault, suspends as an Input or halts,
each with no other effect (R110, R141, R176). -/
theorem Effect.control_cases (h : Effect s i t) :
    SameControl s t ∨ (∃ e, t = s.raise e) ∨
      (∃ m, i = .input m ∧ t = { s with status := .needsInput, result := .needsInput }) ∨
      (i = .halt ∧ t = { s with status := .halted, result := .halted }) := by
  cases h with
  | fault => exact .inr (.inl ⟨_, rfl⟩)
  | suspend => exact .inr (.inr (.inl ⟨_, rfl, rfl⟩))
  | halt => exact .inr (.inr (.inr ⟨rfl, rfl⟩))
  | write => exact .inl ⟨rfl, rfl, rfl⟩
  | take => exact .inl ⟨rfl, rfl, rfl⟩
  | emit => exact .inl ⟨rfl, rfl, rfl⟩
  | jump => exact .inl ⟨rfl, rfl, rfl⟩
  | pass => exact .inl ⟨rfl, rfl, rfl⟩
  | rebase => exact .inl ⟨rfl, rfl, rfl⟩

end

/-- Settles O22: register by register, and a changed cell is the destination resolver's. -/
theorem storingInstructionsFrame : Obligations.StoringInstructionsFrame := by
  intro i k m s t hi hx
  have he := exec_effect hx
  have input_mode : ∀ {m'}, i = .input m' → m' = m := by
    rintro m' rfl
    cases hi
    rfl
  refine ⟨fun a ha => ?cells, he.memWords_eq, ?base, he.inData_eq, he.host_eq, ?latch, ?control⟩
  case cells =>
    by_contra hne
    obtain ⟨k', m', hi', hd⟩ := he.dst_of_changed hne
    cases hi.symm.trans hi'
    exact ha hd
  case base =>
    rcases he.rb_cases with hrb | ⟨_, _, rfl, _⟩
    · exact hrb
    · cases hi
  case latch =>
    rcases he.inValid_cases with hv | ⟨m', hm', hv⟩
    · exact .inl hv
    · exact .inr ⟨input_mode hm' ▸ hm', hv⟩
  case control =>
    rcases he.control_cases with hs | hf | ⟨m', hm', ht⟩ | ⟨rfl, _⟩
    · exact .inl hs
    · exact .inr (.inl hf)
    · exact .inr (.inr ⟨input_mode hm' ▸ hm', ht⟩)
    · cases hi

/-- Settles O23: register by register, and with no destination parameter no cell can change. -/
theorem nonStoringInstructionsFrame : Obligations.NonStoringInstructionsFrame := by
  intro i s t hi hx
  have he := exec_effect hx
  have not_input : ∀ m, i ≠ .input m := by
    rintro m rfl
    cases hi
  refine ⟨fun a => ?cells, he.memWords_eq, ?latch, he.inData_eq, he.host_eq, ?base, ?control⟩
  case cells =>
    by_contra hne
    obtain ⟨k, m, hi', _⟩ := he.dst_of_changed hne
    cases hi.symm.trans hi'
  case latch =>
    rcases he.inValid_cases with hv | ⟨m, hm, _⟩
    · exact hv
    · exact absurd hm (not_input m)
  case base =>
    rcases he.rb_cases with hrb | ⟨m, _, hm, _⟩
    · exact .inl hrb
    · exact .inr ⟨m, hm⟩
  case control =>
    rcases he.control_cases with hs | hf | ⟨m, hm, _⟩ | hh
    · exact .inl hs
    · exact .inr (.inl hf)
    · exact absurd hm (not_input m)
    · exact .inr (.inr hh)

/-- Settles O26: of all a step can lead to, only a LOAD and the effect of the instruction at IP change a cell. -/
theorem onlyDestinationCellsChange : Obligations.OnlyDestinationCellsChange := by
  intro s t a h hne
  rcases step_cases h with ⟨program, padding, hc, _⟩ | ⟨hc, i, hf, he⟩ | hq
  · left
    rw [hc]
    rfl
  · obtain ⟨k, m, hi, hd⟩ := he.dst_of_changed hne
    exact .inr ⟨hc, i, k, m, hf, hi, destIs_of_dst hd⟩
  · exact absurd (by rw [hq.mem]) hne

/-! ### What a storing instruction answers -/

section
variable {s : State}

/-- The source resolver answers the value the parameter has (R85). -/
theorem SourceIs.src_eq {k : Nat} {m : Mode} {v : Word} (h : SourceIs s k m v) : src s k m = .ok v := by
  rcases src_cases s k m with ⟨w, hw, hw'⟩ | ⟨e, _, he⟩
  · rw [hw, h.unique hw']
  · exact absurd he h.not_raises

/-- The destination resolver answers the cell the parameter names (R86). -/
theorem DestIs.dst_eq {k : Nat} {m : Mode} {d : Nat} (h : DestIs s k m d) : dst s k m = .ok d := by
  have hm : m ≠ .immediate := by
    rintro rfl
    obtain ⟨_, ha, _, _⟩ := h
    cases ha
  rcases dst_cases s k hm with ⟨c, hc, hc'⟩ | ⟨e, _, he⟩
  · rw [hc, h.unique hc']
  · exact absurd he h.not_raises

/-- The resolver of format F3 answers the operands the instruction has (R88). -/
theorem OperandsAre.resolveF3_eq {m0 m1 m2 : Mode} {a b : Word} {d : Nat} (h : OperandsAre s m0 m1 m2 a b d) :
    resolveF3 s m0 m1 m2 = .ok (a, b, d) := by
  simp [resolveF3, resolveF2, h.sources.first.src_eq, h.sources.second.src_eq, h.dest.dst_eq, bind, Except.bind,
    pure, Except.pure]

/-- A format F3 instruction with operands and a result writes that result and moves on by 4 cells. -/
theorem OperandsAre.threeOperand_eq {m0 m1 m2 : Mode} {a b r : Word} {d : Nat}
    {alu : Word → Word → Except FaultReason Word} (h : OperandsAre s m0 m1 m2 a b d) (hr : alu a b = .ok r) :
    threeOperand s m0 m1 m2 alu = .next (((s.store d r).advance 4).answer .continues) := by
  simp [threeOperand, finish, h.resolveF3_eq, hr, bind, Except.bind, pure, Except.pure]

/-- An Input with a value latched and a destination takes the value and moves on by 2 cells (R110). -/
theorem DestIs.execInput_eq {m : Mode} {d : Nat} (h : DestIs s 0 m d) (hv : s.inValid = true) :
    execInput m s = .next ((((s.store d s.inData).consumeInput).advance 2).answer .continues) := by
  simp [execInput, hv, finish, h.dst_eq, bind, Except.bind, pure, Except.pure]

/-- An exact result that a cell holds is the narrowed result (R102). -/
theorem narrow_toInt (p : Config.OvfPolicy) (why : OverflowReason) (r : Word) :
    narrow p why r.toInt = .ok r := by
  simp [narrow, (fits64_iff _).2 (representable_toInt r)]

/-- The state `t` is what `i` leaves when it stores `r` into cell `d` and does nothing else to memory, its size,
STATUS or the host's list. -/
structure StoredBy (s : State) (i : Instr) (d : Nat) (r : Word) (t : State) : Prop where
  mem      : t.mem = s.mem.write d r
  memWords : t.memWords = s.memWords
  ip       : t.ip = s.ip + i.length
  status   : t.status = s.status
  host     : t.host = s.host

/-- A format F3 instruction with operands and a result stores that result. -/
theorem OperandsAre.storedBy {i : Instr} {m0 m1 m2 : Mode} {a b r : Word} {d : Nat}
    {alu : Word → Word → Except FaultReason Word} (h : OperandsAre s m0 m1 m2 a b d)
    (hx : exec i s = threeOperand s m0 m1 m2 alu) (hl : i.length = 4) (hr : alu a b = .ok r) :
    ∃ t, exec i s = .next t ∧ StoredBy s i d r t :=
  ⟨_, hx.trans (h.threeOperand_eq hr), rfl, rfl, hl ▸ rfl, rfl, rfl⟩

/-- An instruction that stores by its rule answers a state with the value stored. -/
theorem Stores.exec_storedBy {i : Instr} {d : Nat} {r : Word} (h : Stores s i d r) :
    ∃ t, exec i s = .next t ∧ StoredBy s i d r t := by
  cases h with
  | add ho hr => exact ho.storedBy (exec_add _ _ _ s) rfl (by rw [addResult, ← hr, narrow_toInt])
  | mul ho hr => exact ho.storedBy (exec_mul _ _ _ s) rfl (by rw [mulResult, ← hr, narrow_toInt])
  | input hd hv => exact ⟨_, hd.execInput_eq hv, rfl, rfl, rfl, rfl, rfl⟩
  | less ho hr => exact ho.storedBy (exec_lessThan _ _ _ s) rfl (by simp [truth, hr])
  | notLess ho hr => exact ho.storedBy (exec_lessThan _ _ _ s) rfl (by simp [truth, hr])
  | equal ho hr => exact ho.storedBy (exec_equals _ _ _ s) rfl (by simp [truth, BitVec.eq_of_toInt_eq hr])
  | notEqual ho hr =>
    exact ho.storedBy (exec_equals _ _ _ s) rfl (by simp [truth, mt (congrArg BitVec.toInt) hr])

/-- The cell an instruction stores into is inside the array (R47). -/
theorem Stores.inside {i : Instr} {d : Nat} {r : Word} (h : Stores s i d r) : d < s.memWords := by
  cases h with
  | input hd => exact hd.inside
  | add ho => exact ho.dest.inside
  | mul ho => exact ho.dest.inside
  | less ho => exact ho.dest.inside
  | notLess ho => exact ho.dest.inside
  | equal ho => exact ho.dest.inside
  | notEqual ho => exact ho.dest.inside

/-! ### STEP of a running session -/

/-- A running session whose word at IP decodes executes that instruction (R81). -/
theorem stepCommand_of_decode_ok {i : Instr} (hs : s.status = .running) (hip : s.ip < s.memWords)
    (hd : decode (s.mem.read s.ip) = .ok i) : stepCommand s = exec i s := by
  simp only [stepCommand, hs, fetchDecode_ok_iff.2 ⟨hip, hd⟩]

/-- A running session whose word at IP does not decode raises the decoder's error (R83). -/
theorem stepCommand_of_decode_error {e : DecodeReason} (hs : s.status = .running) (hip : s.ip < s.memWords)
    (hd : decode (s.mem.read s.ip) = .error e) : stepCommand s = .next (s.raise (.decode e)) := by
  have hf : fetchDecode s = .error (.decode e) := by
    simp [fetchDecode, fetch, Nat.not_le.2 hip, decodeStage, hd]
  simp only [stepCommand, hs, hf]

end

/-- Settles O33: the stored value stands in its cell, inside the array, so the next fetch reads it as the word
or as a literal. -/
theorem nextFetchSeesTheStore : Obligations.NextFetchSeesTheStore := by
  intro i s d r hw hh hs h
  obtain ⟨t, hx, ht⟩ := h.exec_storedBy
  have hread : t.mem.read d = r := by rw [ht.mem, Memory.read_write_self d r hw]
  have hin : d < t.memWords := ht.memWords ▸ h.inside
  have hrun : t.status = .running := ht.status.trans hs
  have hstep : step t = stepCommand t := step_of_no_command (ht.host.trans hh)
  refine ⟨t, hx, ht.ip, hread, ?word, ?literal⟩
  case word =>
    rintro rfl
    rw [← ht.ip] at hread hin
    rw [hstep]
    exact ⟨fun j hj => stepCommand_of_decode_ok hrun hin (hread ▸ hj),
      fun e he => stepCommand_of_decode_error hrun hin (hread ▸ he)⟩
  case literal =>
    rintro k rfl
    rw [← ht.ip] at hread hin
    exact ⟨hin, hread⟩

end Sys2Proof.Machine

/-! The family of 30_encoding.md: the words that decode to an instruction (R62 to R72), the canonical word and that
it is the least of them (R76, R79), and the length of an instruction (R60, R74). -/

namespace Sys2Proof

/-! ### Modes and their digits -/

/-- A mode's digit is 0, 1 or 2 (R64). -/
theorem Mode.digit_le_two (m : Mode) : m.digit ≤ 2 := by cases m <;> decide

/-- The digits that stand for a mode, and for which (R64, R70). -/
theorem Mode.ofDigit_eq_some_iff {d : Nat} {m : Mode} : Mode.ofDigit d = some m ↔ d = m.digit := by
  constructor
  · intro h
    unfold Mode.ofDigit at h
    split at h <;> cases h <;> rfl
  · rintro rfl
    cases m <;> rfl

@[simp] theorem Mode.ofDigit_digit (m : Mode) : Mode.ofDigit m.digit = some m := Mode.ofDigit_eq_some_iff.2 rfl

/-- Different modes have different digits. -/
theorem Mode.digit_inj {m n : Mode} : m.digit = n.digit ↔ m = n := by
  rw [← Mode.ofDigit_eq_some_iff, Mode.ofDigit_digit, Option.some_inj]

/-- Every digit up to 2 stands for a mode (R64). -/
theorem Mode.exists_eq_digit {d : Nat} (h : d ≤ 2) : ∃ m : Mode, d = m.digit := by
  interval_cases d
  · exact ⟨.position, rfl⟩
  · exact ⟨.immediate, rfl⟩
  · exact ⟨.relative, rfl⟩

/-- A list of at most three modes begins `[m0, m1, m2]` when its modes have the digits of these. -/
theorem modes_prefix_iff {ms : List Mode} {m0 m1 m2 : Mode} {d : Nat → Nat} (hl : ms.length ≤ 3)
    (h0 : d 0 = m0.digit) (h1 : d 1 = m1.digit) (h2 : d 2 = m2.digit) :
    ms <+: [m0, m1, m2] ↔ ∀ (k : Nat) (m : Mode), ms[k]? = some m → d k = m.digit := by
  have hd : ∀ k < 3, ∀ m : Mode, [m0, m1, m2][k]? = some m ↔ d k = m.digit := by
    intro k hk m
    interval_cases k
    · simp [h0, Mode.digit_inj]
    · simp [h1, Mode.digit_inj]
    · simp [h2, Mode.digit_inj]
  rw [List.prefix_iff_getElem?]
  constructor
  · intro h k m hm
    obtain ⟨hk, rfl⟩ := List.getElem?_eq_some_iff.1 hm
    exact (hd k (by omega) _).1 (h k hk)
  · intro h k hk
    exact (hd k (by omega) _).2 (h k _ (List.getElem?_eq_getElem hk))

/-! ### Instructions: opcode, modes and length -/

/-- The canonical word of every instruction is not negative and has its opcode, and its length is 1 to 4. -/
theorem encodedWord (i : Instr) : Laws.EncodedWord.Statement i := by
  cases i with
  | add a b d => exact Laws.EncodedWord.add a b d
  | mul a b d => exact Laws.EncodedWord.mul a b d
  | input d => exact Laws.EncodedWord.input d
  | output a => exact Laws.EncodedWord.output a
  | jumpIfTrue a b => exact Laws.EncodedWord.jumpIfTrue a b
  | jumpIfFalse a b => exact Laws.EncodedWord.jumpIfFalse a b
  | lessThan a b d => exact Laws.EncodedWord.lessThan a b d
  | equals a b d => exact Laws.EncodedWord.equals a b d
  | adjustBase a => exact Laws.EncodedWord.adjustBase a
  | halt => exact Laws.EncodedWord.halt

/-- An opcode has two digits (R62). -/
theorem Instr.opcode_lt (i : Instr) : i.opcode < 100 := by
  obtain ⟨-, hop, -⟩ := encodedWord i
  omega

/-- An instruction has at most three parameters (R60). -/
theorem Instr.length_modes_le (i : Instr) : i.modes.length ≤ 3 := by
  obtain ⟨-, -, -, hl⟩ := encodedWord i
  exact Nat.le_of_add_le_add_left hl

/-- Every instruction's opcode is legal (R67). -/
theorem legalOpcode_opcode (i : Instr) : legalOpcode i.opcode = true := by cases i <;> rfl

/-- The opcode map selects the instructions with that opcode whose modes are the first of the three (R67, R72). -/
theorem Instr.ofOpcode_eq_some_iff {op : Nat} {m0 m1 m2 : Mode} {i : Instr} :
    Instr.ofOpcode op m0 m1 m2 = some i ↔ op = i.opcode ∧ i.modes <+: [m0, m1, m2] := by
  constructor
  · intro h
    unfold Instr.ofOpcode at h
    split at h <;> cases h <;> exact ⟨rfl, by simp [Instr.modes]⟩
  · rintro ⟨rfl, h⟩
    cases i <;> simp_all [Instr.modes, Instr.opcode, Instr.ofOpcode]

/-! ### What decodes -/

/-- The mode stage answers an instruction only where all three digits are modes (R70). -/
theorem le_two_of_decodeModes_ok {op d0 d1 d2 : Nat} {i : Instr} (h : decodeModes op d0 d1 d2 = .ok i) :
    d0 ≤ 2 ∧ d1 ≤ 2 ∧ d2 ≤ 2 := by
  unfold decodeModes at h
  split at h
  next m0 m1 m2 h0 h1 h2 =>
    rw [Mode.ofDigit_eq_some_iff] at h0 h1 h2
    subst h0 h1 h2
    exact ⟨m0.digit_le_two, m1.digit_le_two, m2.digit_le_two⟩
  · cases h

/-- On the digits of three modes the mode stage answers the instruction the opcode map selects, if it is well
formed (R71). -/
theorem decodeModes_digit_eq_ok_iff {op : Nat} {m0 m1 m2 : Mode} {i : Instr} :
    decodeModes op m0.digit m1.digit m2.digit = .ok i ↔
      WellFormed i ∧ Instr.ofOpcode op m0 m1 m2 = some i := by
  cases h : Instr.ofOpcode op m0 m1 m2 with
  | none => simp [decodeModes, h]
  | some j =>
    have hj : decodeModes op m0.digit m1.digit m2.digit = if WellFormed j then .ok j else .error .immediateDest := by
      simp [decodeModes, h]
    rw [hj, Option.some_inj]
    constructor
    · intro hi
      split at hi
      next hw => cases hi; exact ⟨hw, rfl⟩
      · cases hi
    · rintro ⟨hw, rfl⟩
      exact if_pos hw

/-- What the mode stage answers an instruction on (R64, R67, R70, R71, R72). -/
theorem decodeModes_eq_ok_iff {op : Nat} {d : Nat → Nat} {i : Instr} :
    decodeModes op (d 0) (d 1) (d 2) = .ok i ↔
      WellFormed i ∧ op = i.opcode ∧ (∀ k < 3, d k ≤ 2) ∧
        ∀ (k : Nat) (m : Mode), i.modes[k]? = some m → d k = m.digit := by
  by_cases hd : ∀ k < 3, d k ≤ 2
  · obtain ⟨m0, h0⟩ := Mode.exists_eq_digit (hd 0 (by decide))
    obtain ⟨m1, h1⟩ := Mode.exists_eq_digit (hd 1 (by decide))
    obtain ⟨m2, h2⟩ := Mode.exists_eq_digit (hd 2 (by decide))
    rw [h0, h1, h2, decodeModes_digit_eq_ok_iff, Instr.ofOpcode_eq_some_iff,
      modes_prefix_iff i.length_modes_le h0 h1 h2, and_iff_right hd]
  · refine iff_of_false (fun h => hd fun k hk => ?_) fun ⟨_, _, h, _⟩ => hd h
    obtain ⟨h0, h1, h2⟩ := le_two_of_decodeModes_ok h
    interval_cases k <;> assumption

/-- The decoder answers an instruction for a non-negative word on which the mode stage answers it: an instruction's
opcode is legal, so the opcode check refuses none of these (R83). -/
theorem decode_eq_ok_iff {w : Word} {i : Instr} :
    decode w = .ok i ↔ 0 ≤ w.toInt ∧
      decodeModes (opcodeField w.toNat) (modeDigit w.toNat 0) (modeDigit w.toNat 1) (modeDigit w.toNat 2) = .ok i := by
  constructor
  · intro h
    unfold decode at h
    split at h
    · cases h
    next hn =>
      split at h
      · exact ⟨Int.not_lt.1 hn, h⟩
      · cases h
  · rintro ⟨hn, h⟩
    obtain ⟨-, hop, -⟩ := (decodeModes_eq_ok_iff (d := modeDigit w.toNat)).1 h
    rw [decode, if_neg (Int.not_lt.2 hn), if_pos (hop ▸ legalOpcode_opcode i), h]

/-- Settles O2: the sign check leaves the non-negative words, and the mode stage reads the digits. -/
theorem decodeReadsExactlyTheEncodings : Obligations.DecodeReadsExactlyTheEncodings := by
  intro w i
  rw [decode_eq_ok_iff, decodeModes_eq_ok_iff (d := modeDigit w.toNat)]
  exact and_left_comm

/-! ### The canonical word -/

/-- Mode digits at a weight are the mode digits at weight 1, times the weight. -/
theorem packModes_eq_mul (weight : Nat) (ms : List Mode) : packModes weight ms = weight * packModes 1 ms := by
  induction ms generalizing weight with
  | nil => rfl
  | cons m ms ih =>
    rw [packModes, packModes, ih, ih (10 * 1)]
    ring

/-- The first mode is the lowest digit. -/
theorem packModes_cons (m : Mode) (ms : List Mode) : packModes 1 (m :: ms) = m.digit + 10 * packModes 1 ms := by
  rw [packModes, packModes_eq_mul (10 * 1), Nat.one_mul, Nat.mul_one]

/-- As many digits as there are modes. -/
theorem packModes_lt (ms : List Mode) : packModes 1 ms < 10 ^ ms.length := by
  induction ms with
  | nil => decide
  | cons m ms ih =>
    have hm := m.digit_le_two
    rw [packModes_cons, List.length_cons, pow_succ]
    omega

/-- Digit `k` is the digit of mode `k`, and 0 where there is none. -/
theorem packModes_digit (ms : List Mode) (k : Nat) :
    packModes 1 ms / 10 ^ k % 10 = (ms[k]?.map Mode.digit).getD 0 := by
  induction ms generalizing k with
  | nil => simp [packModes]
  | cons m ms ih =>
    have hm := m.digit_le_two
    rw [packModes_cons]
    cases k with
    | zero =>
      rw [pow_zero, Nat.div_one, List.getElem?_cons_zero, Option.map_some, Option.getD_some]
      omega
    | succ k =>
      have hdiv : (m.digit + 10 * packModes 1 ms) / 10 = packModes 1 ms := by omega
      rw [pow_succ', ← Nat.div_div_eq_div_mul, hdiv, ih, List.getElem?_cons_succ]

/-- A number whose low digits are the digits of the modes is at least the number that has these digits alone. -/
theorem packModes_le {ms : List Mode} {n : Nat}
    (h : ∀ (k : Nat) (m : Mode), ms[k]? = some m → n / 10 ^ k % 10 = m.digit) : packModes 1 ms ≤ n := by
  induction ms generalizing n with
  | nil => exact Nat.zero_le n
  | cons m ms ih =>
    have hlow : n / 10 ^ 0 % 10 = m.digit := h 0 m rfl
    have hhigh : packModes 1 ms ≤ n / 10 := ih fun k m' hm => by
      rw [Nat.div_div_eq_div_mul, ← pow_succ']
      exact h (k + 1) m' hm
    rw [packModes_cons]
    omega

/-- The canonical word's number: the mode digits stand above the two digits of the opcode (R76). -/
theorem Instr.encodeNat_eq (i : Instr) : i.encodeNat = i.opcode + 100 * packModes 1 i.modes := by
  rw [Instr.encodeNat, packModes_eq_mul]

/-- The canonical word has at most five digits. -/
theorem Instr.encodeNat_lt (i : Instr) : i.encodeNat < 100000 := by
  have hop := i.opcode_lt
  have hms : packModes 1 i.modes < 10 ^ 3 :=
    (packModes_lt i.modes).trans_le (Nat.pow_le_pow_right (by decide) i.length_modes_le)
  rw [i.encodeNat_eq]
  omega

/-- The canonical word holds its number. -/
@[simp] theorem encode_toNat (i : Instr) : (encode i).toNat = i.encodeNat := by
  have hi := i.encodeNat_lt
  rw [encode, BitVec.toNat_ofNat, Nat.mod_eq_of_lt (by omega)]

/-- The mode digits of a word are the digits above its two lowest (R62). -/
theorem modeDigit_eq (w k : Nat) : modeDigit w k = w / 100 / 10 ^ k % 10 := by
  have hpow : 10 ^ (k + 2) = 100 * 10 ^ k := by ring
  rw [modeDigit, digit, hpow, Nat.div_div_eq_div_mul]

/-- The mode digits of the canonical word: those of the modes, and 0 where there is no parameter (R76). -/
theorem modeDigit_encodeNat (i : Instr) (k : Nat) :
    modeDigit i.encodeNat k = (i.modes[k]?.map Mode.digit).getD 0 := by
  have hop := i.opcode_lt
  have hdiv : (i.opcode + 100 * packModes 1 i.modes) / 100 = packModes 1 i.modes := by omega
  rw [modeDigit_eq, i.encodeNat_eq, hdiv, packModes_digit]

/-- The canonical word of a well-formed instruction decodes to it. -/
theorem decode_encode {i : Instr} (h : WellFormed i) : decode (encode i) = .ok i := by
  obtain ⟨hsign, hop, -⟩ := encodedWord i
  rw [decodeReadsExactlyTheEncodings]
  refine ⟨h, hsign, hop, fun k _ => ?small, fun k m hm => ?mode⟩
  case small =>
    change modeDigit (encode i).toNat k ≤ 2
    rw [encode_toNat, modeDigit_encodeNat]
    cases i.modes[k]? with
    | none => exact Nat.zero_le 2
    | some m => exact m.digit_le_two
  case mode =>
    change modeDigit (encode i).toNat k = m.digit
    rw [encode_toNat, modeDigit_encodeNat, hm]
    rfl

/-- Every word that decodes to an instruction is at least its canonical word: it has the same opcode and the same
mode digits, and perhaps others above them. -/
theorem encodeNat_le_of_decode {w : Word} {i : Instr} (h : decode w = .ok i) : i.encodeNat ≤ w.toNat := by
  obtain ⟨-, -, hop, -, hmodes⟩ := (decodeReadsExactlyTheEncodings w i).1 h
  have hle : packModes 1 i.modes ≤ w.toNat / 100 := packModes_le fun k m hm => by
    rw [← modeDigit_eq]
    exact hmodes k m hm
  rw [i.encodeNat_eq]
  omega

/-- Settles O3: the canonical word has the digits the decoder reads, and every word that decodes to `i` has them
too. -/
theorem canonicalWordDecodesAndIsLeast : Obligations.CanonicalWordDecodesAndIsLeast := fun i hi =>
  ⟨decode_encode hi, fun _ hw => (encode_toNat i).trans_le (encodeNat_le_of_decode hw)⟩

/-! ### Digits that take no part, and digits that are absent -/

/-- The opcode stands in the five low digits. -/
theorem opcodeField_mod (w : Nat) : opcodeField (w % 100000) = opcodeField w := by
  unfold opcodeField
  omega

/-- The three mode digits stand in the five low digits (R72 (a)). -/
theorem modeDigit_mod (w : Nat) {k : Nat} (hk : k < 3) : modeDigit (w % 100000) k = modeDigit w k := by
  rw [modeDigit_eq, modeDigit_eq]
  interval_cases k <;> omega

/-- Settles O4: decode reads the sign, the opcode and three mode digits, all of them the same for both words. -/
theorem highDigitsAreIgnored : Obligations.HighDigitsAreIgnored := by
  intro w w' hw hw' h
  have hop : opcodeField w.toNat = opcodeField w'.toNat := by
    rw [← opcodeField_mod, h, opcodeField_mod]
  have hmode : ∀ k < 3, modeDigit w.toNat k = modeDigit w'.toNat k := fun k hk => by
    rw [← modeDigit_mod _ hk, h, modeDigit_mod _ hk]
  simp only [decode, Int.not_lt.2 hw, Int.not_lt.2 hw', hop, hmode 0 (by decide), hmode 1 (by decide),
    hmode 2 (by decide)]

/-- Settles O5: the digit is 0, which stands for Position. -/
theorem absentDigitsArePosition : Obligations.AbsentDigitsArePosition := by
  intro w k h
  rw [modeDigit, digit, Nat.div_eq_of_lt h]
  rfl

/-! ### Fixed words, and lengths -/

/-- Settles O6, by running the decoder on the ten words. -/
theorem specWordsDecode : Obligations.SpecWordsDecode :=
  ⟨by decide, by decide, by decide, by decide, by decide, by decide, by decide, by decide, by decide, by decide⟩

/-- Settles O7: one row of R67 after another. -/
theorem lengthFollowsOpcode : Obligations.LengthFollowsOpcode := by
  intro i
  cases i with
  | add => exact .inl ⟨.inl rfl, rfl⟩
  | mul => exact .inl ⟨.inr (.inl rfl), rfl⟩
  | lessThan => exact .inl ⟨.inr (.inr (.inl rfl)), rfl⟩
  | equals => exact .inl ⟨.inr (.inr (.inr rfl)), rfl⟩
  | input => exact .inr (.inl ⟨.inl rfl, rfl⟩)
  | output => exact .inr (.inl ⟨.inr (.inl rfl), rfl⟩)
  | adjustBase => exact .inr (.inl ⟨.inr (.inr rfl), rfl⟩)
  | jumpIfTrue => exact .inr (.inr (.inl ⟨.inl rfl, rfl⟩))
  | jumpIfFalse => exact .inr (.inr (.inl ⟨.inr rfl, rfl⟩))
  | halt => exact .inr (.inr (.inr ⟨rfl, rfl⟩))

end Sys2Proof

/-! The family of 40_step_and_operands.md: the decoder's checks in their order (R83), the operand resolver and its
faults (R84 to R87), the stages of STEP (R81, R82) and what its results say (R80). -/

namespace Sys2Proof

/-! ### The decoder's checks -/

/-- The opcode check accepts 1 to 9 and 99 (R67, R68). -/
theorem legalOpcode_iff {op : Nat} : legalOpcode op = true ↔ (1 ≤ op ∧ op ≤ 9) ∨ op = 99 := by
  simp [legalOpcode]

/-- First check: the sign (R69). -/
theorem decode_of_negative {w : Word} (h : w.toInt < 0) : decode w = .error .negativeWord := if_pos h

/-- Second check: the opcode (R68). -/
theorem decode_of_illegal {w : Word} (h : 0 ≤ w.toInt) (hop : ¬ legalOpcode (opcodeField w.toNat) = true) :
    decode w = .error .badOpcode := by
  rw [decode, if_neg (Int.not_lt.2 h), if_neg hop]

/-- Behind the first two checks the mode stage decides, on the three mode digits (R62). -/
theorem decode_of_legal {w : Word} (h : 0 ≤ w.toInt) (hop : legalOpcode (opcodeField w.toNat) = true) :
    decode w = decodeModes (opcodeField w.toNat) (modeDigit w.toNat 0) (modeDigit w.toNat 1) (modeDigit w.toNat 2) := by
  rw [decode, if_neg (Int.not_lt.2 h), if_pos hop]

/-- Third check: all three digits are modes, used or not (R70). -/
theorem decodeModes_of_not_modes (op : Nat) {d0 d1 d2 : Nat} (h : ¬ (d0 ≤ 2 ∧ d1 ≤ 2 ∧ d2 ≤ 2)) :
    decodeModes op d0 d1 d2 = .error .badMode := by
  unfold decodeModes
  split
  next m0 m1 m2 h0 h1 h2 =>
    rw [Mode.ofDigit_eq_some_iff] at h0 h1 h2
    subst h0 h1 h2
    exact absurd ⟨m0.digit_le_two, m1.digit_le_two, m2.digit_le_two⟩ h
  · rfl

/-- The opcode map has an instruction for every legal opcode (R67). -/
theorem Instr.exists_ofOpcode {op : Nat} (h : legalOpcode op = true) (m0 m1 m2 : Mode) :
    ∃ i, Instr.ofOpcode op m0 m1 m2 = some i := by
  rcases legalOpcode_iff.1 h with ⟨low, high⟩ | rfl
  · interval_cases op <;> exact ⟨_, rfl⟩
  · exact ⟨_, rfl⟩

/-- The destination digit of the opcode is 1: the third mode digit of Add, Mul, LessThan and Equals, the first of
Input (R65, R71). -/
def ImmediateDestDigit (op d0 d2 : Nat) : Prop :=
  ((op = 1 ∨ op = 2 ∨ op = 7 ∨ op = 8) ∧ d2 = 1) ∨ (op = 3 ∧ d0 = 1)

/-- An instruction is well formed unless the digit of its destination's mode is 1 (R71). -/
theorem wellFormed_iff_of_prefix {i : Instr} {m0 m1 m2 : Mode} (h : i.modes <+: [m0, m1, m2]) :
    WellFormed i ↔ ¬ ImmediateDestDigit i.opcode m0.digit m2.digit := by
  have digit_one : ∀ m : Mode, m.digit = 1 ↔ m = .immediate := fun m => Mode.digit_inj (n := .immediate)
  cases i with
  | add | mul | lessThan | equals =>
    simp only [Instr.modes, List.cons_prefix_cons] at h
    obtain ⟨-, -, rfl, -⟩ := h
    simp [WellFormed, Instr.wellFormed, ImmediateDestDigit, Instr.opcode, digit_one]
  | input =>
    simp only [Instr.modes, List.cons_prefix_cons] at h
    obtain ⟨rfl, -⟩ := h
    simp [WellFormed, Instr.wellFormed, ImmediateDestDigit, Instr.opcode, digit_one]
  | output | jumpIfTrue | jumpIfFalse | adjustBase | halt =>
    simp [WellFormed, Instr.wellFormed, ImmediateDestDigit, Instr.opcode]

/-- The mode digits of an instruction whose modes are the first of three are the first of their digits. -/
theorem Instr.map_digit_of_prefix {i : Instr} {m0 m1 m2 : Mode} (h : i.modes <+: [m0, m1, m2]) :
    i.modes.map Mode.digit = [m0.digit, m1.digit, m2.digit].take i.paramCount :=
  calc i.modes.map Mode.digit
    _ = [m0.digit, m1.digit, m2.digit].take (i.modes.map Mode.digit).length :=
      List.prefix_iff_eq_take.1 (h.map Mode.digit)
    _ = [m0.digit, m1.digit, m2.digit].take i.paramCount := by rw [List.length_map, Instr.paramCount]

/-- Fourth check: for a legal opcode and three mode digits the mode stage raises ImmediateDest, or answers the
instruction with that opcode and those modes (R71, R83). -/
theorem decodeModes_of_modes {op d0 d1 d2 : Nat} (hop : legalOpcode op = true)
    (hd : d0 ≤ 2 ∧ d1 ≤ 2 ∧ d2 ≤ 2) :
    (ImmediateDestDigit op d0 d2 → decodeModes op d0 d1 d2 = .error .immediateDest) ∧
      (¬ ImmediateDestDigit op d0 d2 → ∃ i : Instr, decodeModes op d0 d1 d2 = .ok i ∧ i.opcode = op ∧
        i.modes.map Mode.digit = [d0, d1, d2].take i.paramCount) := by
  obtain ⟨h0, h1, h2⟩ := hd
  obtain ⟨m0, rfl⟩ := Mode.exists_eq_digit h0
  obtain ⟨m1, rfl⟩ := Mode.exists_eq_digit h1
  obtain ⟨m2, rfl⟩ := Mode.exists_eq_digit h2
  obtain ⟨i, hi⟩ := Instr.exists_ofOpcode hop m0 m1 m2
  obtain ⟨rfl, hmodes⟩ := Instr.ofOpcode_eq_some_iff.1 hi
  have hwf := wellFormed_iff_of_prefix hmodes
  constructor
  · intro himm
    have hnot : ¬ i.wellFormed = true := fun hw => hwf.1 hw himm
    simp only [decodeModes, Mode.ofDigit_digit, hi, if_neg hnot]
  · intro himm
    exact ⟨i, decodeModes_digit_eq_ok_iff.2 ⟨hwf.2 himm, hi⟩, rfl, i.map_digit_of_prefix hmodes⟩

/-- Settles O1: the sign, the opcode, the three mode digits, the destination digit, check after check. -/
theorem decodeChecksInOrder : Obligations.DecodeChecksInOrder := by
  intro w
  refine ⟨decode_of_negative, fun hn hop => ?badOpcode, fun hn hop hd => ?badMode,
    fun hn hop hd himm => ?immediateDest, fun hn hop hd himm => ?instruction⟩
  case badOpcode => exact decode_of_illegal hn (mt legalOpcode_iff.1 hop)
  case badMode => exact (decode_of_legal hn (legalOpcode_iff.2 hop)).trans (decodeModes_of_not_modes _ hd)
  case immediateDest =>
    have hlegal := legalOpcode_iff.2 hop
    exact (decode_of_legal hn hlegal).trans ((decodeModes_of_modes hlegal hd).1 himm)
  case instruction =>
    have hlegal := legalOpcode_iff.2 hop
    obtain ⟨i, hi, hdigits⟩ := (decodeModes_of_modes hlegal hd).2 himm
    exact ⟨i, (decode_of_legal hn hlegal).trans hi, hdigits⟩

end Sys2Proof

namespace Sys2Proof.Machine

/-! ### The operand resolver -/

section
variable {s : State} {k : Nat}

/-- A parameter cell beyond the array has no literal (R84). -/
theorem literal_of_missing (h : s.memWords ≤ s.ip + 1 + k) : literal s k = .error (.address .paramOutOfRange) :=
  if_pos h

/-- A parameter cell inside the array is the literal (R84). -/
theorem LiteralIs.literal_eq {lit : Word} (h : LiteralIs s k lit) : literal s k = .ok lit := by
  obtain ⟨hin, rfl⟩ := h
  exact if_neg (Nat.not_le.2 hin)

/-- A source with an effective address is the cell there (R85). -/
theorem LiteralIs.src_eq_readSource {m : Mode} {lit : Word} {a : Int} (h : LiteralIs s k lit)
    (ha : AddressOf s m lit a) : src s k m = readSource s a := by
  rw [src, h.literal_eq]
  cases ha <;> rfl

/-- A destination with an effective address is checked at it (R86). -/
theorem LiteralIs.dst_eq_checkAddress {m : Mode} {lit : Word} {a : Int} (h : LiteralIs s k lit)
    (ha : AddressOf s m lit a) : dst s k m = checkAddress s .dstNegative .dstOutOfRange a := by
  cases ha <;> rw [dst, h.literal_eq] <;> rfl

/-- The range check refuses a negative address (R47). -/
theorem checkAddress_of_negative {n o : AddressReason} {a : Int} (h : a < 0) :
    checkAddress s n o a = .error (.address n) := if_pos h

/-- The range check refuses an address at or beyond MEM_WORDS (R47). -/
theorem checkAddress_of_outOfRange {n o : AddressReason} {a : Int} (h : (s.memWords : Int) ≤ a) :
    checkAddress s n o a = .error (.address o) := by
  rw [checkAddress, if_neg (by omega), if_pos h]

/-- The source resolver raises the fault that the rule raises (R85). -/
theorem SourceRaises.src_eq {m : Mode} {e : FaultReason} (h : SourceRaises s k m e) : src s k m = .error e := by
  cases h with
  | missing h => rw [src, literal_of_missing h]; rfl
  | negative h ha low => rw [h.src_eq_readSource ha, readSource, checkAddress_of_negative low]; rfl
  | outOfRange h ha high => rw [h.src_eq_readSource ha, readSource, checkAddress_of_outOfRange high]; rfl

/-- The destination resolver raises the fault that the rule raises (R86). -/
theorem DestRaises.dst_eq {m : Mode} {e : FaultReason} (h : DestRaises s k m e) : dst s k m = .error e := by
  cases h with
  | missing hm h =>
    cases m with
    | immediate => exact absurd rfl hm
    | position => rw [dst, literal_of_missing h]; rfl
    | relative => rw [dst, literal_of_missing h]; rfl
  | negative h ha low => rw [h.dst_eq_checkAddress ha, checkAddress_of_negative low]
  | outOfRange h ha high => rw [h.dst_eq_checkAddress ha, checkAddress_of_outOfRange high]

/-- The source resolver's faults are those of the rule. -/
theorem sourceRaises_of_src {m : Mode} {e : FaultReason} (h : src s k m = .error e) : SourceRaises s k m e := by
  rcases src_cases s k m with ⟨v, hv, _⟩ | ⟨e', he, hr⟩
  · cases hv.symm.trans h
  · cases he.symm.trans h
    exact hr

/-- The destination resolver's faults are those of the rule, in the modes a destination has. -/
theorem destRaises_of_dst {m : Mode} {e : FaultReason} (hm : m ≠ .immediate) (h : dst s k m = .error e) :
    DestRaises s k m e := by
  rcases dst_cases s k hm with ⟨d, hd, _⟩ | ⟨e', he, hr⟩
  · cases hd.symm.trans h
  · cases he.symm.trans h
    exact hr

end

/-- Settles O8: the two branches of the literal resolver. -/
theorem literalIsTheParameterCell : Obligations.LiteralIsTheParameterCell := fun _ _ =>
  ⟨literal_of_missing, fun h => LiteralIs.literal_eq ⟨h, rfl⟩⟩

/-- Settles O9: the resolver and the rule imply one another, for values and for faults. -/
theorem sourceOperandFollowsItsMode : Obligations.SourceOperandFollowsItsMode := fun _ _ _ =>
  ⟨fun _ => ⟨sourceIs_of_src, SourceIs.src_eq⟩, fun _ => ⟨sourceRaises_of_src, SourceRaises.src_eq⟩⟩

/-- Settles O10, as O9. -/
theorem destinationOperandFollowsItsMode : Obligations.DestinationOperandFollowsItsMode := fun _ _ _ hm =>
  ⟨fun _ => ⟨destIs_of_dst, DestIs.dst_eq⟩, fun _ => ⟨destRaises_of_dst hm, DestRaises.dst_eq⟩⟩

/-- The exact sum of two cell values lies in [-2^64, 2^64 - 2] (R87). -/
theorem toInt_add_toInt_bounds (x y : Word) :
    -2 ^ 64 ≤ x.toInt + y.toInt ∧ x.toInt + y.toInt ≤ 2 ^ 64 - 2 := by
  obtain ⟨xlow, xhigh⟩ := representable_toInt x
  obtain ⟨ylow, yhigh⟩ := representable_toInt y
  exact ⟨by omega, by omega⟩

/-- Settles O11: the sum is the effective address of Relative mode, and both resolvers follow their rules at it. -/
theorem effectiveAddressIsExact : Obligations.EffectiveAddressIsExact := by
  intro s k lit h sum
  have ha : AddressOf s .relative lit sum := .relative lit
  refine ⟨toInt_add_toInt_bounds lit s.rb, fun low => ?negative, fun _ high => ?outOfRange, fun low high => ?cell⟩
  case negative => exact ⟨(SourceRaises.negative h ha low).src_eq, (DestRaises.negative h ha low).dst_eq⟩
  case outOfRange => exact ⟨(SourceRaises.outOfRange h ha high).src_eq, (DestRaises.outOfRange h ha high).dst_eq⟩
  case cell => exact ⟨(SourceIs.cell h ha low high).src_eq, (DestIs.cell h ha low high).dst_eq⟩

/-! ### What the results of an instruction say -/

/-- The instruction is neither an Output nor a Halt: the ones that answer `Continue` (R80). -/
def AnswersContinue (i : Instr) : Prop := (∀ m, i ≠ .output m) ∧ i ≠ .halt

/-- An instruction with a destination parameter is neither an Output nor a Halt (R65). -/
theorem answersContinue_of_dest {i : Instr} {p : Nat × Mode} (h : i.dest = some p) : AnswersContinue i := by
  constructor
  · rintro m rfl
    cases h
  · rintro rfl
    cases h

/-- A jump is neither an Output nor a Halt. -/
theorem IsJump.answersContinue {i : Instr} (h : IsJump i) : AnswersContinue i := by
  obtain ⟨m0, m1, rfl | rfl⟩ := h <;> exact ⟨nofun, nofun⟩

/-- Settles O32: the result that each effect of an instruction leaves. -/
theorem resultsTellWhatRan : Obligations.ResultsTellWhatRan := by
  intro i s t h
  cases exec_effect h with
  | write hi => exact .inl ⟨rfl, answersContinue_of_dest hi⟩
  | take => exact .inl ⟨rfl, nofun, nofun⟩
  | jump hj => exact .inl ⟨rfl, hj.isJump.answersContinue⟩
  | pass hi => exact .inl ⟨rfl, hi.answersContinue⟩
  | rebase => exact .inl ⟨rfl, nofun, nofun⟩
  | emit ha => exact .inr (.inl ⟨_, _, rfl, rfl, ha⟩)
  | suspend hv => exact .inr (.inr (.inl ⟨_, rfl, rfl, hv⟩))
  | halt => exact .inr (.inr (.inr (.inl ⟨rfl, rfl⟩)))
  | fault => exact .inr (.inr (.inr (.inr ⟨_, rfl, rfl⟩)))

/-! ### The stages of STEP -/

section
variable {s : State}

/-- STEP of a faulted session returns the recorded fault (R178). -/
theorem stepCommand_of_faulted (h : s.status = .faulted) : stepCommand s = .next s.returnFault := by
  simp only [stepCommand, h]

/-- STEP of a halted session is a misuse (R174). -/
theorem stepCommand_of_halted (h : s.status = .halted) :
    stepCommand s = .next (s.raise (.misuse .steppedHalted)) := by
  simp only [stepCommand, h]

/-- STEP of a session that waits for a value is a misuse (R174). -/
theorem stepCommand_of_needsInput (h : s.status = .needsInput) :
    stepCommand s = .next (s.raise (.misuse .stepWithoutSupply)) := by
  simp only [stepCommand, h]

/-- STEP of a running session with IP at or beyond MEM_WORDS ends in the fetch stage (R82). -/
theorem stepCommand_of_fetchOutOfRange (h : s.status = .running) (hip : s.memWords ≤ s.ip) :
    stepCommand s = .next (s.raise (.address .fetchOutOfRange)) := by
  simp only [stepCommand, h, fetchDecode, fetch, hip, if_true]

/-- With STEP listed first, a step is a STEP with that command no longer listed. -/
theorem step_of_step_listed {rest : List Command} (h : s.host = .step :: rest) :
    step s = stepCommand { s with host := rest } := by
  cases s
  cases h
  rfl

end

/-- Settles O30: stage after stage. -/
theorem stepStagesInOrder : Obligations.StepStagesInOrder := fun _ =>
  ⟨stepCommand_of_faulted, stepCommand_of_halted, stepCommand_of_needsInput, stepCommand_of_fetchOutOfRange,
    fun _ => stepCommand_of_decode_error, fun _ => stepCommand_of_decode_ok⟩

/-- Settles O29: either way the step is a STEP of a running session whose word at IP decodes. -/
theorem stepRunsTheDecodedInstruction : Obligations.StepRunsTheDecodedInstruction := fun _ _ hs hip hd =>
  ⟨fun h => (step_of_no_command h).trans (stepCommand_of_decode_ok hs hip hd),
    fun _ h => (step_of_step_listed h).trans (stepCommand_of_decode_ok hs hip hd)⟩

end Sys2Proof.Machine

/-! The family of 41_arithmetic.md: Add and Mul (R100, R101), and the exact result that no cell holds, at both values
of OVF_POLICY (R102). -/

namespace Sys2Proof.Machine

/-! ### An exact result brought into a cell -/

section
variable {v : Int}

/-- A representable result is the narrowed result, at both policies. -/
theorem narrow_of_representable (h : Representable v) (p : Config.OvfPolicy) (why : OverflowReason) :
    ∃ r : Word, r.toInt = v ∧ narrow p why v = .ok r := by
  rcases narrow_cases p why v with ⟨_, hr⟩ | ⟨hn, _⟩ | ⟨hn, _⟩
  · exact hr
  · exact absurd h hn
  · exact absurd h hn

/-- At `fault` a result that no cell holds is the instruction's own overflow. -/
theorem narrow_fault_of_not_representable (h : ¬ Representable v) (why : OverflowReason) :
    narrow .fault why v = .error (.overflow why) := by
  rcases narrow_cases .fault why v with ⟨hr, _⟩ | ⟨_, _, hf⟩ | ⟨_, hp, _⟩
  · exact absurd hr h
  · exact hf
  · cases hp

/-- At `wrap` a result that no cell holds is wrapped. -/
theorem narrow_wrap_of_not_representable (h : ¬ Representable v) (why : OverflowReason) :
    narrow .wrap why v = .ok (wrap64 v) := by
  rcases narrow_cases .wrap why v with ⟨hr, _⟩ | ⟨_, hp, _⟩ | ⟨_, _, hw⟩
  · exact absurd hr h
  · cases hp
  · exact hw

end

/-- The overflow check follows the policy (R102, R175). -/
theorem narrow_follows_policy (why : OverflowReason) (v : Int) :
    (Representable v → ∀ p, ∃ r : Word, r.toInt = v ∧ narrow p why v = .ok r) ∧
      (¬ Representable v → narrow .fault why v = .error (.overflow why) ∧
        ∃ (r : Word) (k : Int), r.toInt = v + k * 2 ^ 64 ∧ narrow .wrap why v = .ok r) := by
  refine ⟨fun h p => narrow_of_representable h p why, fun h => ⟨narrow_fault_of_not_representable h why, ?_⟩⟩
  obtain ⟨k, hk⟩ := toInt_wrap64_congruent v
  exact ⟨wrap64 v, k, hk, narrow_wrap_of_not_representable h why⟩

/-- Settles O41: each of the three results is its exact result behind the one overflow check. -/
theorem overflowFollowsThePolicy : Obligations.OverflowFollowsThePolicy := fun _ _ =>
  ⟨narrow_follows_policy .addOverflow _, narrow_follows_policy .mulOverflow _, narrow_follows_policy .baseOverflow _⟩

/-! ### The faults of a format F3 instruction -/

section
variable {s : State} {m0 m1 m2 : Mode} {e : FaultReason}

/-- The resolver of format F2 answers the values the sources have (R88). -/
theorem SourcesAre.resolveF2_eq {a b : Word} (h : SourcesAre s m0 m1 a b) : resolveF2 s m0 m1 = .ok (a, b) := by
  rw [resolveF2, h.first.src_eq, h.second.src_eq]
  rfl

/-- The resolver of format F2 raises the first fault of the sources (R88). -/
theorem SourcesRaise.resolveF2_eq (h : SourcesRaise s m0 m1 e) : resolveF2 s m0 m1 = .error e := by
  cases h with
  | first h => rw [resolveF2, h.src_eq]; rfl
  | second h0 h => rw [resolveF2, h0.src_eq, h.src_eq]; rfl

/-- The resolver of format F3 raises the first fault of the operands (R88). -/
theorem OperandsRaise.resolveF3_eq (h : OperandsRaise s m0 m1 m2 e) : resolveF3 s m0 m1 m2 = .error e := by
  cases h with
  | sources h => rw [resolveF3, h.resolveF2_eq]; rfl
  | dest hs h => rw [resolveF3, hs.resolveF2_eq, h.dst_eq]; rfl

/-- A format F3 instruction enters the first fault of its operands, whatever it computes. -/
theorem OperandsRaise.threeOperand_eq (h : OperandsRaise s m0 m1 m2 e)
    (alu : Word → Word → Except FaultReason Word) : threeOperand s m0 m1 m2 alu = .next (s.raise e) := by
  rw [threeOperand, h.resolveF3_eq]
  rfl

/-- A format F3 instruction with operands enters the fault that its computation raises. -/
theorem OperandsAre.threeOperand_raises {a b : Word} {d : Nat} {alu : Word → Word → Except FaultReason Word}
    (h : OperandsAre s m0 m1 m2 a b d) (he : alu a b = .error e) :
    threeOperand s m0 m1 m2 alu = .next (s.raise e) := by
  rw [threeOperand, h.resolveF3_eq]
  show finish s (alu a b >>= _) = _
  rw [he]
  rfl

end

/-! ### Add and Mul -/

/-- The canonical word of a format F3 instruction (R76). -/
theorem encode_toNat_of_three_modes {i : Instr} {m0 m1 m2 : Mode} (h : i.modes = [m0, m1, m2]) :
    (encode i).toNat = i.opcode + 100 * m0.digit + 1000 * m1.digit + 10000 * m2.digit := by
  rw [encode_toNat, Instr.encodeNat, h]
  simp only [packModes]
  omega

/-- A format F3 instruction whose result is `f` of its two sources, exact and checked: the first fault of its
operands, its overflow, or the result stored. -/
theorem threeOperand_narrow (s : State) (m0 m1 m2 : Mode) (why : OverflowReason) (f : Int → Int → Int)
    {alu : Word → Word → Except FaultReason Word}
    (halu : ∀ a b, alu a b = narrow Config.ovfPolicy why (f a.toInt b.toInt)) :
    (∀ e, OperandsRaise s m0 m1 m2 e → threeOperand s m0 m1 m2 alu = .next (s.raise e)) ∧
      (∀ a b d, OperandsAre s m0 m1 m2 a b d → ¬ Representable (f a.toInt b.toInt) →
        threeOperand s m0 m1 m2 alu = .next (s.raise (.overflow why))) ∧
      (∀ a b d, OperandsAre s m0 m1 m2 a b d → Representable (f a.toInt b.toInt) →
        ∃ r : Word, r.toInt = f a.toInt b.toInt ∧
          threeOperand s m0 m1 m2 alu =
            .next { s with mem := s.mem.write d r, ip := s.ip + 4, result := .continues }) := by
  refine ⟨fun e h => h.threeOperand_eq alu, fun a b d h hn => ?overflow, fun a b d h hf => ?stored⟩
  case overflow => exact h.threeOperand_raises ((halu a b).trans (narrow_fault_of_not_representable hn why))
  case stored =>
    obtain ⟨r, hr, hok⟩ := narrow_of_representable hf Config.ovfPolicy why
    exact ⟨r, hr, h.threeOperand_eq ((halu a b).trans hok)⟩

/-- Settles O12: the word by its digits, the rest as the format F3 instruction whose result is the checked sum. -/
theorem addWritesTheSum : Obligations.AddWritesTheSum := fun m0 m1 m2 s _ =>
  ⟨encode_toNat_of_three_modes rfl, threeOperand_narrow s m0 m1 m2 .addOverflow (· + ·) fun _ _ => rfl⟩

/-- Settles O13: as O12, with the checked product. -/
theorem mulWritesTheProduct : Obligations.MulWritesTheProduct := fun m0 m1 m2 s _ =>
  ⟨encode_toNat_of_three_modes rfl, threeOperand_narrow s m0 m1 m2 .mulOverflow (· * ·) fun _ _ => rfl⟩

end Sys2Proof.Machine

/-! The family of 42_io.md: Input and Output (R110, R111), and the protocol STEP, SUPPLY, STEP by which an Input takes
its value (R110, R152). -/

namespace Sys2Proof.Machine

/-! ### Input and Output -/

/-- The canonical word of an instruction with one parameter (R76). -/
theorem encode_toNat_of_one_mode {i : Instr} {m : Mode} (h : i.modes = [m]) :
    (encode i).toNat = i.opcode + 100 * m.digit := by
  rw [encode_toNat, Instr.encodeNat, h]
  rfl

section
variable {s : State} {m : Mode} {e : FaultReason}

/-- An Input with no value latched suspends, and no parameter cell is read (R110). -/
theorem execInput_of_empty_latch (m : Mode) (hv : s.inValid = false) :
    execInput m s = .next ((s.setStatus .needsInput).answer .needsInput) := by
  rw [execInput, hv]
  rfl

/-- An Input with a value latched enters the fault of its destination (R110). -/
theorem DestRaises.execInput_eq (h : DestRaises s 0 m e) (hv : s.inValid = true) :
    execInput m s = .next (s.raise e) := by
  rw [execInput, if_pos hv, h.dst_eq]
  rfl

/-- An Output enters the fault of its operand (R111). -/
theorem SourceRaises.execOutput_eq (h : SourceRaises s 0 m e) : execOutput m s = .next (s.raise e) := by
  rw [execOutput, h.src_eq]
  rfl

/-- An Output with an operand emits it and moves on by 2 cells (R111). -/
theorem SourceIs.execOutput_eq {a : Word} (h : SourceIs s 0 m a) :
    execOutput m s = .next ((s.advance 2).answer (.output a)) := by
  rw [execOutput, h.src_eq]
  rfl

end

/-- Settles O14: the empty latch, the destination's fault and the value taken, each by its own lemma. -/
theorem inputSuspendsOrStoresTheLatch : Obligations.InputSuspendsOrStoresTheLatch := fun m _ _ =>
  ⟨encode_toNat_of_one_mode rfl, execInput_of_empty_latch m, fun _ hv he => he.execInput_eq hv,
    fun _ hv hd => hd.execInput_eq hv⟩

/-- Settles O15: the operand's fault and its value, each by its own lemma. -/
theorem outputEmitsItsOperand : Obligations.OutputEmitsItsOperand := fun _ _ =>
  ⟨encode_toNat_of_one_mode rfl, fun _ => SourceRaises.execOutput_eq, fun _ => SourceIs.execOutput_eq⟩

/-! ### The input protocol -/

section
variable {s : State} {rest : List Command}

/-- The cell a destination names depends on memory and its size, IP and RB alone (R86). -/
theorem DestIs.transfer {t : State} {k : Nat} {m : Mode} {d : Nat} (h : SameOperands s t) (hd : DestIs s k m d) :
    DestIs t k m d := by
  cases hd with
  | cell hl ha low high => exact .cell (hl.transfer h) (ha.transfer h) low (h.memWords ▸ high)

/-- STEP of a running session executes the instruction at IP (R81). -/
theorem stepCommand_of_fetchDecode_ok {i : Instr} (hs : s.status = .running) (hf : fetchDecode s = .ok i) :
    stepCommand s = exec i s := by
  obtain ⟨hip, hd⟩ := fetchDecode_ok_iff.1 hf
  exact stepCommand_of_decode_ok hs hip hd

/-- With SUPPLY listed first, a step is that SUPPLY with the command no longer listed. -/
theorem step_of_supply_listed {v : Word} (h : s.host = .supply v :: rest) :
    step s = .next (supply v { s with host := rest }) := by
  cases s
  cases h
  rfl

/-- SUPPLY of a session that waits for a value latches it, and the session runs on (R152). -/
theorem supply_of_needsInput (h : s.status = .needsInput) (v : Word) :
    supply v s = ((s.latchInput v).setStatus .running).answer .accepted := by
  simp only [supply, h]

/-- The first step of the protocol: STEP at an Input with an empty latch. -/
theorem step_suspends_at_input {m : Mode} (hs : s.status = .running) (hv : s.inValid = false)
    (hf : fetchDecode s = .ok (.input m)) (hh : s.host = .step :: rest) :
    step s = .next { s with status := .needsInput, host := rest, result := .needsInput } :=
  calc step s = stepCommand { s with host := rest } := step_of_step_listed hh
    _ = exec (.input m) { s with host := rest } := stepCommand_of_fetchDecode_ok hs hf
    _ = _ := execInput_of_empty_latch m hv

/-- The second step of the protocol: SUPPLY of the session that waits. -/
theorem step_latches_supplied {v : Word} (hs : s.status = .needsInput) (hh : s.host = .supply v :: rest) :
    step s = .next { s with status := .running, inValid := true, inData := v, host := rest, result := .accepted } :=
  (step_of_supply_listed hh).trans (congrArg _ (supply_of_needsInput (s := { s with host := rest }) hs v))

/-- The third step of the protocol: STEP at the Input with the value latched. -/
theorem step_takes_latched {m : Mode} {d : Nat} (hs : s.status = .running) (hv : s.inValid = true)
    (hf : fetchDecode s = .ok (.input m)) (hd : DestIs s 0 m d) (hh : s.host = .step :: rest) :
    step s = .next { s with mem := s.mem.write d s.inData, inValid := false, ip := s.ip + 2, host := rest,
                            result := .continues } :=
  have hd' : DestIs { s with host := rest } 0 m d := hd.transfer (s := s) ⟨rfl, rfl, rfl, rfl⟩
  calc step s = stepCommand { s with host := rest } := step_of_step_listed hh
    _ = exec (.input m) { s with host := rest } := stepCommand_of_fetchDecode_ok hs hf
    _ = _ := hd'.execInput_eq hv

end

/-- A run of three steps, from what each of them answers. -/
theorem core_run_three {s t u w : State} (hst : step s = .next t) (htu : step t = .next u) (huw : step u = .next w) :
    Host.Core.run Sys2Proof.core 3 s = .next w :=
  calc Host.Core.run Sys2Proof.core 3 s
    _ = Host.Core.run Sys2Proof.core 2 t := core_run_succ 2 hst
    _ = Host.Core.run Sys2Proof.core 1 u := core_run_succ 1 htu
    _ = Host.Core.run Sys2Proof.core 0 w := core_run_succ 0 huw
    _ = .next w := core_run_zero w

/-- Settles O34: the three steps in a row, the last two of which undo what happened to STATUS and to the latch. -/
theorem inputTakesStepSupplyStep : Obligations.InputTakesStepSupplyStep := by
  intro s m v d hs hv hf hd hh
  have suspend := step_suspends_at_input hs hv hf hh
  refine ⟨core_run_succ 0 suspend, ?_⟩
  rw [hs, hv]
  exact core_run_three suspend (step_latches_supplied rfl rfl)
    (step_takes_latched rfl rfl hf (hd.transfer (s := s) ⟨rfl, rfl, rfl, rfl⟩) rfl)

end Sys2Proof.Machine

/-! The family of 43_jumps.md: JumpIfTrue and JumpIfFalse (R120, R121), which resolve both of their operands and check
the target only when they jump. -/

namespace Sys2Proof.Machine

/-! ### The zero test and the target check -/

/-- The zero test answers yes on 0 (R121). -/
theorem isZero_of_toInt_eq_zero {a : Word} (h : a.toInt = 0) : isZero a = true :=
  beq_iff_eq.2 (BitVec.eq_of_toInt_eq h)

/-- The zero test answers no on every other value (R120). -/
theorem isZero_of_toInt_ne_zero {a : Word} (h : a.toInt ≠ 0) : isZero a = false :=
  beq_eq_false_iff_ne.2 (mt (congrArg BitVec.toInt) h)

/-- The range check accepts an address inside the array (R47). -/
theorem checkAddress_of_inside {s : State} {n o : AddressReason} {a : Int} (low : 0 ≤ a)
    (high : a < (s.memWords : Int)) : checkAddress s n o a = .ok a.toNat := by
  rw [checkAddress, if_neg (Int.not_lt.2 low), if_neg (Int.not_le.2 high)]

/-! ### A format F2 instruction, by its sources -/

/-- The canonical word of an instruction with two parameters (R76). -/
theorem encode_toNat_of_two_modes {i : Instr} {m0 m1 : Mode} (h : i.modes = [m0, m1]) :
    (encode i).toNat = i.opcode + 100 * m0.digit + 1000 * m1.digit := by
  rw [encode_toNat, Instr.encodeNat, h]
  simp only [packModes]
  omega

section
variable {s : State} {m0 m1 : Mode} {a b : Word} {taken : Word → Bool}

/-- A jump enters the first fault of its sources, taken or not (R88). -/
theorem SourcesRaise.conditionalJump_eq {e : FaultReason} (h : SourcesRaise s m0 m1 e) (taken : Word → Bool) :
    conditionalJump s m0 m1 taken = .next (s.raise e) := by
  rw [conditionalJump, h.resolveF2_eq]
  rfl

/-- A jump that is not taken moves on by 3 cells, and its target is not checked. -/
theorem SourcesAre.conditionalJump_of_not_taken (h : SourcesAre s m0 m1 a b) (ht : taken a = false) :
    conditionalJump s m0 m1 taken = .next ((s.advance 3).answer .continues) := by
  rw [conditionalJump, h.resolveF2_eq]
  show finish s (if taken a = true then _ else _) = _
  rw [ht]
  rfl

/-- A jump that is taken goes to its target, or enters the fault of the target's check. -/
theorem SourcesAre.conditionalJump_of_taken (h : SourcesAre s m0 m1 a b) (ht : taken a = true) :
    conditionalJump s m0 m1 taken = finish s ((jumpTarget s b).map fun t => (s.jumpTo t).answer .continues) := by
  rw [conditionalJump, h.resolveF2_eq]
  show finish s (if taken a = true then _ else _) = _
  rw [if_pos ht]
  cases jumpTarget s b <;> rfl

/-- A jump that is taken to a negative target enters JumpNegative. -/
theorem SourcesAre.conditionalJump_negative (h : SourcesAre s m0 m1 a b) (ht : taken a = true) (low : b.toInt < 0) :
    conditionalJump s m0 m1 taken = .next (s.raise (.address .jumpNegative)) := by
  rw [h.conditionalJump_of_taken ht, jumpTarget, checkAddress_of_negative low]
  rfl

/-- A jump that is taken to a target at or beyond MEM_WORDS enters JumpOutOfRange. -/
theorem SourcesAre.conditionalJump_outOfRange (h : SourcesAre s m0 m1 a b) (ht : taken a = true)
    (high : (s.memWords : Int) ≤ b.toInt) :
    conditionalJump s m0 m1 taken = .next (s.raise (.address .jumpOutOfRange)) := by
  rw [h.conditionalJump_of_taken ht, jumpTarget, checkAddress_of_outOfRange high]
  rfl

/-- A jump that is taken to a target inside the array makes it the new IP (R122). -/
theorem SourcesAre.conditionalJump_inside (h : SourcesAre s m0 m1 a b) (ht : taken a = true) (low : 0 ≤ b.toInt)
    (high : b.toInt < (s.memWords : Int)) :
    conditionalJump s m0 m1 taken = .next ((s.jumpTo b.toInt.toNat).answer .continues) := by
  rw [h.conditionalJump_of_taken ht, jumpTarget, checkAddress_of_inside low high]
  rfl

end

/-! ### JumpIfTrue and JumpIfFalse -/

/-- Settles O16: the conditional jump that is taken where the zero test answers no. -/
theorem jumpIfTrueJumpsOnNonZero : Obligations.JumpIfTrueJumpsOnNonZero := by
  intro m0 m1 s
  have pass {a : Word} (ha : a.toInt = 0) : (!isZero a) = false := congrArg not (isZero_of_toInt_eq_zero ha)
  have take {a : Word} (ha : a.toInt ≠ 0) : (!isZero a) = true := congrArg not (isZero_of_toInt_ne_zero ha)
  rw [exec_jumpIfTrue]
  exact ⟨encode_toNat_of_two_modes rfl, fun _ he => he.conditionalJump_eq _,
    fun _ _ h ha => h.conditionalJump_of_not_taken (pass ha),
    fun _ _ h ha => h.conditionalJump_negative (take ha),
    fun _ _ h ha _ => h.conditionalJump_outOfRange (take ha),
    fun _ _ h ha => h.conditionalJump_inside (take ha)⟩

/-- Settles O17: the conditional jump that is taken where the zero test answers yes. -/
theorem jumpIfFalseJumpsOnZero : Obligations.JumpIfFalseJumpsOnZero := by
  intro m0 m1 s
  rw [exec_jumpIfFalse]
  exact ⟨encode_toNat_of_two_modes rfl, fun _ he => he.conditionalJump_eq _,
    fun _ _ h ha => h.conditionalJump_of_not_taken (isZero_of_toInt_ne_zero ha),
    fun _ _ h ha => h.conditionalJump_negative (isZero_of_toInt_eq_zero ha),
    fun _ _ h ha _ => h.conditionalJump_outOfRange (isZero_of_toInt_eq_zero ha),
    fun _ _ h ha => h.conditionalJump_inside (isZero_of_toInt_eq_zero ha)⟩

end Sys2Proof.Machine

/-! The family of 44_compare.md: LessThan and Equals (R130, R131), which store the truth of a comparison of their two
sources. -/

namespace Sys2Proof.Machine

/-! ### A format F3 instruction that stores a truth value -/

section
variable {s : State} {m0 m1 m2 : Mode} {a b : Word} {d : Nat} {rel : Word → Word → Bool}

/-- A comparison that holds of the sources stores exactly 1 and moves on by 4 cells. -/
theorem OperandsAre.threeOperand_truth_of_true (h : OperandsAre s m0 m1 m2 a b d) (hr : rel a b = true) :
    threeOperand s m0 m1 m2 (fun x y => .ok (truth (rel x y))) =
      .next (((s.store d 1#64).advance 4).answer .continues) :=
  h.threeOperand_eq (congrArg (Except.ok ∘ truth) hr)

/-- A comparison that does not hold of the sources stores exactly 0 and moves on by 4 cells. -/
theorem OperandsAre.threeOperand_truth_of_false (h : OperandsAre s m0 m1 m2 a b d) (hr : rel a b = false) :
    threeOperand s m0 m1 m2 (fun x y => .ok (truth (rel x y))) =
      .next (((s.store d 0#64).advance 4).answer .continues) :=
  h.threeOperand_eq (congrArg (Except.ok ∘ truth) hr)

end

/-! ### LessThan and Equals -/

/-- Settles O18: the word by its digits, the first fault of the operands, and the signed comparison where it holds and
where it does not. -/
theorem lessThanWritesSignedComparison : Obligations.LessThanWritesSignedComparison := by
  intro m0 m1 m2 s _
  rw [exec_lessThan]
  exact ⟨encode_toNat_of_three_modes rfl, fun _ he => he.threeOperand_eq _,
    fun _ _ _ h hlt => h.threeOperand_truth_of_true (decide_eq_true hlt),
    fun _ _ _ h hle => h.threeOperand_truth_of_false (decide_eq_false (Int.not_lt.2 hle))⟩

/-- Settles O19: as O18, with the equality of the cells, which is the equality of their integers. -/
theorem equalsWritesEquality : Obligations.EqualsWritesEquality := by
  intro m0 m1 m2 s _
  rw [exec_equals]
  exact ⟨encode_toNat_of_three_modes rfl, fun _ he => he.threeOperand_eq _,
    fun _ _ _ h heq => h.threeOperand_truth_of_true (beq_iff_eq.2 (BitVec.eq_of_toInt_eq heq)),
    fun _ _ _ h hne => h.threeOperand_truth_of_false (beq_eq_false_iff_ne.2 (mt (congrArg BitVec.toInt) hne))⟩

end Sys2Proof.Machine

/-! The family of 45_base_and_halt.md: AdjustBase (R140), which moves RB by its operand, and Halt (R141), after which a
session answers PEEK and INSPECT and raises on STEP and SUPPLY. -/

namespace Sys2Proof.Machine

/-! ### AdjustBase, by its operand -/

section
variable {s : State} {m : Mode}

/-- An AdjustBase enters the fault of its operand (R140). -/
theorem SourceRaises.execAdjustBase_eq {e : FaultReason} (h : SourceRaises s 0 m e) :
    execAdjustBase m s = .next (s.raise e) := by
  rw [execAdjustBase, h.src_eq]
  rfl

/-- An AdjustBase with an operand moves on by 2 cells with the checked sum of the old RB and the operand in RB, or
enters the fault of the check (R140). -/
theorem SourceIs.execAdjustBase_eq {a : Word} (h : SourceIs s 0 m a) :
    execAdjustBase m s =
      finish s ((baseResult Config.ovfPolicy s.rb a).map fun r => ((s.setBase r).advance 2).answer .continues) := by
  rw [execAdjustBase, h.src_eq]
  show finish s (baseResult Config.ovfPolicy s.rb a >>= _) = _
  cases baseResult Config.ovfPolicy s.rb a <;> rfl

/-- An AdjustBase whose sum no cell holds enters BaseOverflow (R140). -/
theorem SourceIs.execAdjustBase_overflow {a : Word} (h : SourceIs s 0 m a)
    (hn : ¬ Representable (s.rb.toInt + a.toInt)) :
    execAdjustBase m s = .next (s.raise (.overflow .baseOverflow)) := by
  have hb : baseResult Config.ovfPolicy s.rb a = .error (.overflow .baseOverflow) :=
    narrow_fault_of_not_representable hn _
  rw [h.execAdjustBase_eq, hb]
  rfl

/-- An AdjustBase whose sum a cell holds makes it the new RB and moves on by 2 cells (R140). -/
theorem SourceIs.execAdjustBase_sum {a : Word} (h : SourceIs s 0 m a) (hr : Representable (s.rb.toInt + a.toInt)) :
    ∃ r : Word, r.toInt = s.rb.toInt + a.toInt ∧
      execAdjustBase m s = .next (((s.setBase r).advance 2).answer .continues) := by
  obtain ⟨r, hsum, hok⟩ := narrow_of_representable hr Config.ovfPolicy .baseOverflow
  refine ⟨r, hsum, ?_⟩
  rw [h.execAdjustBase_eq, baseResult, hok]
  rfl

end

/-- Settles O20: the operand's fault, the overflow and the sum, each by its own lemma. -/
theorem adjustBaseAddsToRelativeBase : Obligations.AdjustBaseAddsToRelativeBase := by
  intro m s
  rw [exec_adjustBase]
  exact ⟨encode_toNat_of_one_mode rfl, fun _ he => he.execAdjustBase_eq, fun _ h => h.execAdjustBase_overflow,
    fun _ h => h.execAdjustBase_sum⟩

/-! ### Halt, and what a halted session answers -/

section
variable {s : State}

/-- SUPPLY of a halted session is a misuse (R141, R152). -/
theorem supply_of_halted (h : s.status = .halted) (v : Word) : supply v s = s.raise (.misuse .supplyNotNeeded) := by
  simp only [supply, h]

/-- PEEK inside the array answers the cell, in every status (R153). -/
theorem peek_of_inside {a : Int} (low : 0 ≤ a) (high : a < (s.memWords : Int)) :
    peek a s = s.answer (.value (s.mem.read a.toNat)) :=
  if_pos ⟨low, high⟩

end

/-- Settles O21: the state that Halt leaves is halted, and its memory and its other registers are the old ones. -/
theorem haltStopsPermanently : Obligations.HaltStopsPermanently := by
  intro s
  have halted : ((s.setStatus .halted).answer .halted).status = .halted := rfl
  refine ⟨by decide, (s.setStatus .halted).answer .halted, exec_halt s, rfl, ?step, ?supply, ?peek, ?inspect⟩
  case step => exact stepCommand_of_halted halted
  case supply => exact fun v => congrArg Host.Outcome.next (supply_of_halted halted v)
  case peek => exact fun _ low high => congrArg Host.Outcome.next (peek_of_inside low high)
  case inspect => rfl

end Sys2Proof.Machine

/-! The family of 46_host_interface.md: LOAD, SUPPLY, PEEK and INSPECT (R151 to R153), the two host loops over STEP
(R155, R156) and the strict wrapper (R157). -/

namespace Sys2Proof.Machine

/-! ### LOAD -/

section
variable {program : List Int} {padding : Int}

/-- `loadAccepted` decides the preconditions of LOAD (R151). -/
theorem loadAccepted_iff : loadAccepted program padding = true ↔
    (∀ v ∈ program, Representable v) ∧ 0 ≤ padding ∧ (program.length : Int) + padding ≤ (Config.memMax : Int) := by
  simp only [loadAccepted, Bool.and_eq_true, decide_eq_true_eq, List.all_eq_true, fits64_iff, and_assoc]

/-- A LOAD whose preconditions hold replaces the whole session (R151). -/
theorem load_of_accepted (h : loadAccepted program padding = true) (s : State) :
    load program padding s = loadedState program padding s.host := if_pos h

/-- A LOAD with a precondition that fails is refused (R151). -/
theorem load_of_not_accepted (h : ¬ loadAccepted program padding = true) (s : State) :
    load program padding s = s.answer .loadRefused := if_neg h

/-- A cell of the loaded memory holds the program value of its index, and 0 where there is none (R32, R48). -/
theorem loadedState_read (host : List Command) (i : Nat) :
    (loadedState program padding host).mem.read i = (program.map wrap64).getD i 0 :=
  (Memory.read_image _ 0 i).trans (if_pos i.zero_le)

/-- A loaded cell holds the representable program value of its index as a signed integer (R32). -/
theorem loadedState_read_program {host : List Command} {i : Nat} {v : Int} (hi : program[i]? = some v)
    (hv : Representable v) : ((loadedState program padding host).mem.read i).toInt = v := by
  have hcell : (program.map wrap64).getD i 0 = wrap64 v := by
    rw [List.getD_eq_getElem?_getD, List.getElem?_map, hi]
    rfl
  rw [loadedState_read, hcell, toInt_wrap64 hv]

/-- Every loaded cell behind the program holds 0 (R48). -/
theorem loadedState_read_beyond {host : List Command} {i : Nat} (hi : program.length ≤ i) :
    (loadedState program padding host).mem.read i = 0 := by
  rw [loadedState_read, List.getD_eq_default _ _ (by rwa [List.length_map])]

end

/-- Settles O37: an accepted LOAD answers `loadedState`, field by field as R32 says, and any other is refused. -/
theorem loadPutsTheResetValues : Obligations.LoadPutsTheResetValues := by
  intro program padding s accepted
  refine ⟨fun h => ?_, fun h => congrArg Host.Outcome.next (load_of_not_accepted (mt loadAccepted_iff.1 h) s)⟩
  obtain ⟨hvalues, hpadding, hsize⟩ := h
  have hload := load_of_accepted (loadAccepted_iff.2 ⟨hvalues, hpadding, hsize⟩) s
  have hwords : ((program.length + padding.toNat : Nat) : Int) = program.length + padding := by omega
  exact ⟨_, congrArg Host.Outcome.next hload, hwords, Memory.wf_image _,
    fun _ _ hi => loadedState_read_program hi (hvalues _ (List.mem_of_getElem? hi)),
    fun _ => loadedState_read_beyond, rfl, rfl, rfl, rfl, rfl, rfl, rfl⟩

/-! ### The host loops over Continue -/

section
variable {s t u : State} {n : Nat}

/-- No STEP, no result. -/
theorem not_firstOtherResult_zero : ¬ FirstOtherResult 0 s t := by
  rintro ⟨-, k, hk, -⟩
  exact absurd hk (by omega)

/-- After a step that returns Continue, the first other result is the one the rest of the run has. -/
theorem firstOtherResult_succ_of_continues (hs : step s = .next u) (hu : u.result = .continues) :
    FirstOtherResult (n + 1) s t ↔ FirstOtherResult n u t := by
  constructor
  · rintro ⟨ht, k, hk, hrun, hbefore⟩
    rw [core_run_succ k hs] at hrun
    cases k with
    | zero =>
      cases hrun
      exact absurd hu ht
    | succ k =>
      exact ⟨ht, k, by omega, hrun, fun j w _ hjk hw =>
        hbefore (j + 1) w (by omega) (by omega) ((core_run_succ j hs).trans hw)⟩
  · rintro ⟨ht, k, hk, hrun, hbefore⟩
    refine ⟨ht, k + 1, by omega, (core_run_succ (k + 1) hs).trans hrun, fun j w hj hjk hw => ?_⟩
    obtain ⟨i, rfl⟩ : ∃ i, j = i + 1 := ⟨j - 1, by omega⟩
    rw [core_run_succ i hs] at hw
    cases i with
    | zero =>
      cases hw
      exact hu
    | succ i => exact hbefore (i + 1) w (by omega) (by omega) hw

/-- A step that returns another result than Continue is the first other result itself. -/
theorem firstOtherResult_succ_of_other (hs : step s = .next u) (hu : u.result ≠ .continues) :
    FirstOtherResult (n + 1) s t ↔ u = t := by
  constructor
  · rintro ⟨-, k, -, hrun, hbefore⟩
    cases k with
    | zero =>
      cases (core_run_succ 0 hs).symm.trans hrun
      rfl
    | succ k => exact absurd (hbefore 1 u (by omega) (by omega) (core_run_succ 0 hs)) hu
  · rintro rfl
    exact ⟨hu, 0, by omega, core_run_succ 0 hs, fun j _ hj hjk => absurd hj (by omega)⟩

/-- A loop over Continue goes on from a STEP that returns it. -/
theorem stepWhileContinue_succ_of_continues (n : Nat) (hs : stepCommand s = .next u) (hu : u.result = .continues) :
    stepWhileContinue (n + 1) s = stepWhileContinue n u := by
  simp only [stepWhileContinue, hs, if_pos hu]

/-- A loop over Continue answers the state after a STEP that returns another result. -/
theorem stepWhileContinue_succ_of_other (n : Nat) (hs : stepCommand s = .next u) (hu : u.result ≠ .continues) :
    stepWhileContinue (n + 1) s = some u := by
  simp only [stepWhileContinue, hs, if_neg hu]

end

/-- With no command listed, a loop over Continue answers the state after the first other result and no other state
(R155, R156). -/
theorem stepWhileContinue_eq_some_iff (n : Nat) {s t : State} (hh : s.host = []) :
    stepWhileContinue n s = some t ↔ FirstOtherResult n s t := by
  induction n generalizing s with
  | zero => exact iff_of_false nofun not_firstOtherResult_zero
  | succ n ih =>
    obtain ⟨u, hu⟩ := stepCommand_answers s
    have hs : step s = .next u := (step_of_no_command hh).trans hu
    by_cases hr : u.result = .continues
    · rw [stepWhileContinue_succ_of_continues n hu hr, firstOtherResult_succ_of_continues hs hr]
      exact ih ((stepCommand_host hu).trans hh)
    · rw [stepWhileContinue_succ_of_other n hu hr, firstOtherResult_succ_of_other hs hr, Option.some_inj]

/-- Settles O47: both loops are the loop over Continue. -/
theorem runStopsAtFirstOtherResult : Obligations.RunStopsAtFirstOtherResult := fun n _ _ hh =>
  ⟨stepWhileContinue_eq_some_iff n hh, stepWhileContinue_eq_some_iff n hh⟩

/-! ### SUPPLY, PEEK and INSPECT -/

section
variable {s : State}

/-- SUPPLY of a faulted session returns the recorded fault (R152). -/
theorem supply_of_faulted (h : s.status = .faulted) (v : Word) : supply v s = s.returnFault := by
  simp only [supply, h]

/-- SUPPLY of a running session is a misuse (R152). -/
theorem supply_of_running (h : s.status = .running) (v : Word) : supply v s = s.raise (.misuse .supplyNotNeeded) := by
  simp only [supply, h]

/-- PEEK outside the array finds no cell, in every status (R153). -/
theorem peek_of_outside {a : Int} (h : a < 0 ∨ (s.memWords : Int) ≤ a) : peek a s = s.answer .noSuchCell :=
  if_neg (by omega)

end

/-- Settles O35: status by status. -/
theorem supplyLatchesOnlyOnRequest : Obligations.SupplyLatchesOnlyOnRequest := by
  intro s v
  refine ⟨fun h => ?faulted, fun h => ?notAsked, fun h => ?asked⟩
  case faulted => exact congrArg Host.Outcome.next (supply_of_faulted h v)
  case notAsked =>
    rcases h with h | h
    · exact congrArg Host.Outcome.next (supply_of_running h v)
    · exact congrArg Host.Outcome.next (supply_of_halted h v)
  case asked => exact congrArg Host.Outcome.next (supply_of_needsInput h v)

/-- Settles O36: PEEK inside and outside the array, each by its own lemma, and INSPECT by its definition. -/
theorem peekAndInspectOnlyRead : Obligations.PeekAndInspectOnlyRead := fun _ _ =>
  ⟨fun low high => congrArg Host.Outcome.next (peek_of_inside low high),
    fun h => congrArg Host.Outcome.next (peek_of_outside h), rfl⟩

/-! ### The strict wrapper -/

/-- A host with no input left stops on a STEP that asks for one, and a strict host reports StarvedInputError
(R157, R173). -/
theorem drive_of_unmet_request (strict : Bool) (n : Nat) {s t : State} (hs : stepCommand s = .next t)
    (ht : t.result = .needsInput) :
    drive strict (n + 1) [] s =
      some { outputs := []
             answer := if strict then .fault .starvedInputError .starved else .needsInput
             session := t } := by
  rw [drive_succ, hs]
  simp only [ht]

/-- Settles O48: the first STEP suspends at the Input, and the request is not met. -/
theorem strictWrapperReportsStarvation : Obligations.StrictWrapperReportsStarvation := by
  intro n s m hs hv hf
  have hstep : stepCommand s = .next ((s.setStatus .needsInput).answer .needsInput) :=
    (stepCommand_of_fetchDecode_ok hs hf).trans (execInput_of_empty_latch m hv)
  exact drive_of_unmet_request true n hstep rfl

end Sys2Proof.Machine

/-! The family of 60_exceptions.md and 70_reset_and_hazards.md: fault entry (R176), a faulted session until its LOAD
(R178), the fault the CORE never raises (R173), and reset as a LOAD (R200, R202). -/

namespace Sys2Proof.Machine

/-! ### What a command does to STATUS and the fault registers -/

/-- StarvedInputError is the cause of one reason only (R170). -/
theorem FaultReason.eq_starved_of_cause {e : FaultReason} (h : e.cause = .starvedInputError) : e = .starved := by
  cases e with
  | starved => rfl
  | none => cases h
  | decode r => cases h
  | address r => cases h
  | misuse r => cases h
  | overflow r => cases h

/-- What one command can do to the fault state of a session (R176, R178): enter a fault, with no other effect and a
reason the CORE raises; leave the fault registers as they are and make no session Faulted; or clear them. -/
inductive FaultEffect (s : State) : State → Prop where
  /-- fault entry (R176) -/
  | entered (e : FaultReason) (he : e.cause ≠ .none) (hs : e ≠ .starved) : FaultEffect s (s.raise e)
  /-- no fault is raised -/
  | kept {t : State} (status : t.status = .faulted → s.status = .faulted) (cause : t.faultCause = s.faultCause)
      (reason : t.faultReason = s.faultReason) : FaultEffect s t
  /-- an accepted LOAD (R32) -/
  | cleared {t : State} (status : t.status = .running) (cause : t.faultCause = .none)
      (reason : t.faultReason = .none) : FaultEffect s t

section
variable {s t : State}

/-- A command that only answers raises no fault. -/
theorem FaultEffect.answer (s : State) (r : Response) : FaultEffect s (s.answer r) := .kept id rfl rfl

/-- Executing an instruction enters a fault or keeps the fault registers. -/
theorem Effect.faultEffect {i : Instr} (h : Effect s i t) : FaultEffect s t := by
  cases h with
  | fault he => exact .entered _ he.cause_ne_none he.ne_starved
  | suspend => exact .kept nofun rfl rfl
  | halt => exact .kept nofun rfl rfl
  | write => exact .kept id rfl rfl
  | take => exact .kept id rfl rfl
  | emit => exact .kept id rfl rfl
  | jump => exact .kept id rfl rfl
  | pass => exact .kept id rfl rfl
  | rebase => exact .kept id rfl rfl

/-- The fault effect of a STEP, by the stage it ends in (R81). -/
theorem stepCommand_faultEffect (h : stepCommand s = .next t) : FaultEffect s t := by
  cases stepCommand_effect h with
  | again => exact .answer s _
  | misuse r => exact .entered _ nofun nofun
  | early e _ he hs => exact .entered e he hs
  | run _ _ _ _ hx => exact (exec_effect hx).faultEffect

/-- The fault effect of a LOAD, accepted or refused (R151). -/
theorem load_faultEffect (program : List Int) (padding : Int) (s : State) :
    FaultEffect s (load program padding s) := by
  rcases load_cases program padding s with ⟨_, h⟩ | h <;> rw [h]
  · exact .cleared rfl rfl rfl
  · exact .answer s _

/-- The fault effect of a SUPPLY, in every status (R152). -/
theorem supply_faultEffect (v : Word) (s : State) : FaultEffect s (supply v s) := by
  rcases supply_cases v s with ⟨_, h⟩ | ⟨_, h⟩ | h <;> rw [h]
  · exact .answer s _
  · exact .kept nofun rfl rfl
  · exact .entered _ nofun nofun

/-- The fault effect of each of the five commands. -/
theorem command_faultEffect {c : Command} (h : command c s = .next t) : FaultEffect s t := by
  cases c with
  | load program padding =>
    cases h
    exact load_faultEffect program padding s
  | step => exact stepCommand_faultEffect h
  | supply v =>
    cases h
    exact supply_faultEffect v s
  | peek a =>
    cases h
    obtain ⟨r, hr⟩ := peek_eq_answer a s
    exact hr ▸ .answer s r
  | inspect =>
    cases h
    exact .answer s _

end

/-- Settles O24: of the three fault effects only fault entry leaves a session faulted that was not. -/
theorem faultEntryChangesNothingElse : Obligations.FaultEntryChangesNothingElse := by
  intro c s t hs h ht
  cases command_faultEffect h with
  | entered e he => exact ⟨e, he, rfl⟩
  | kept status => exact absurd (status ht) hs
  | cleared status => cases status.symm.trans ht

/-- Settles O39: no fault effect puts Starved into the fault registers. -/
theorem coreNeverStarves : Obligations.CoreNeverStarves := by
  intro s t h
  have hc : command s.nextCommand s.takeCommand = .next t := h
  cases command_faultEffect hc with
  | entered e _ hs => exact ⟨fun hr => absurd hr hs, fun hr => absurd (FaultReason.eq_starved_of_cause hr) hs⟩
  | kept _ cause reason => exact ⟨reason.symm.trans, cause.symm.trans⟩
  | cleared _ cause reason =>
    rw [cause, reason]
    exact ⟨nofun, nofun⟩

/-! ### A faulted session -/

section
variable {s : State}

/-- A command other than LOAD to a faulted session changes nothing but the answer (R178). -/
theorem command_of_faulted {c : Command} (hs : s.status = .faulted) (hc : c.isLoad = false) :
    ∃ r, command c s = .next (s.answer r) := by
  cases c with
  | load program padding => cases hc
  | step => exact ⟨_, stepCommand_of_faulted hs⟩
  | supply v => exact ⟨_, congrArg Host.Outcome.next (supply_of_faulted hs v)⟩
  | peek a =>
    obtain ⟨r, hr⟩ := peek_eq_answer a s
    exact ⟨r, congrArg Host.Outcome.next hr⟩
  | inspect => exact ⟨_, rfl⟩

/-- The next command is no LOAD if the list begins with none: with no command listed it is STEP. -/
theorem nextCommand_isLoad_eq_false {n : Nat} (h : ∀ c ∈ s.host.take (n + 1), c.isLoad = false) :
    s.nextCommand.isLoad = false := by
  unfold State.nextCommand
  cases hh : s.host with
  | nil => rfl
  | cons c rest => exact h c (by simp [hh])

/-- A faulted session takes `n` commands other than LOAD and changes nothing but the list and the answer (R178). -/
theorem core_run_of_faulted (n : Nat) (hs : s.status = .faulted)
    (h : ∀ c ∈ s.host.take n, c.isLoad = false) :
    ∃ r, Host.Core.run Sys2Proof.core n s = .next { s with host := s.host.drop n, result := r } := by
  induction n generalizing s with
  | zero => exact ⟨s.result, core_run_zero s⟩
  | succ n ih =>
    obtain ⟨r, hr⟩ := command_of_faulted (s := s.takeCommand) hs (nextCommand_isLoad_eq_false h)
    have hrest : ∀ c ∈ s.host.tail.take n, c.isLoad = false := fun c hc =>
      h c (List.mem_of_mem_tail (by rwa [List.tail_take_eq_take_tail, Nat.add_sub_cancel]))
    obtain ⟨r', hr'⟩ := ih (s := s.takeCommand.answer r) hs hrest
    refine ⟨r', (core_run_succ n hr).trans (hr'.trans ?_)⟩
    rw [State.answer_host, State.takeCommand_host, List.drop_tail]
    rfl

end

/-- Settles O38: command by command, and STEP and SUPPLY by their own lemmas. -/
theorem faultedIsAbsorbing : Obligations.FaultedIsAbsorbing := fun n _ hs h =>
  ⟨core_run_of_faulted n hs h, stepCommand_of_faulted hs,
    fun v => congrArg Host.Outcome.next (supply_of_faulted hs v)⟩

/-! ### Reset -/

/-- Reset is the LOAD of the empty program in a memory of MEM_MAX cells (R200). -/
theorem loadAccepted_reset : loadAccepted [] (2 ^ 63) = true := by decide

/-- That LOAD leaves the reset state of a session whose host lists no command (R202). -/
theorem loadedState_reset : loadedState [] (2 ^ 63) [] = State.reset := rfl

/-- Settles O44: the LOAD is accepted, and what it leaves is the reset state. -/
theorem resetIsALoad : Obligations.ResetIsALoad := by
  intro s hh
  have hload := load_of_accepted loadAccepted_reset s
  rw [hh, loadedState_reset] at hload
  exact congrArg Host.Outcome.next hload

end Sys2Proof.Machine
